-- ==== Sys2Proof/Word.lean ====
section
/-! DEFINITION. The widths of the hardware (00_scope.md R7): the word types every other file uses. -/

namespace Sys2Proof

/-- A register, a byte of memory, a timer, the stack pointer (00_scope.md R7: V_WIDTH, SP_WIDTH, TIMER_WIDTH). -/
abbrev Byte := BitVec 8

/-- A 16-bit value: an instruction word (30_encoding.md R41). -/
abbrev Word := BitVec 16

/-- A 16-bit address value: pc, I, a stack slot (00_scope.md R7: PC_WIDTH, I_WIDTH, STACK_SLOTS). -/
abbrev Addr := BitVec 16

/-- A 4-bit field of an instruction word (30_encoding.md R42). -/
abbrev Nibble := BitVec 4

/-- A register number, 0 to 15, as the x and y fields hold it (30_encoding.md R43: always in range). -/
abbrev RegNum := BitVec 4

/-- A 12-bit address operand, the field nnn (30_encoding.md R42). -/
abbrev Addr12 := BitVec 12

/-- One pixel of the frame buffer: 0 or 1 (10_state.md R23). -/
abbrev Pixel := BitVec 1

/-- The number of VF, the flag register (10_state.md R15). -/
abbrev vf : RegNum := 15#4

end Sys2Proof
end

