-- ==== Sys2Proof/Syntax.lean ====
section
/-! DEFINITION. The instructions: one constructor for each of the 18 rows of spec/opcode_table.json
(30_encoding.md R44). -/

namespace Sys2Proof

/-- The instruction set of the core (00_scope.md R2, 30_encoding.md R44). The operands are the fields of the
word (30_encoding.md R42), each of its field's width, so every value of every operand is a legal one
(30_encoding.md R43). -/
inductive Instr where
  /-- 00E0 CLS (40_display.md R53) -/
  | cls
  /-- 00EE RET (41_flow.md R54) -/
  | ret
  /-- 1nnn JP nnn (41_flow.md R55) -/
  | jp (nnn : Addr12)
  /-- 2nnn CALL nnn (41_flow.md R56) -/
  | call (nnn : Addr12)
  /-- 3xkk SE Vx, kk (42_skip.md R57) -/
  | seImm (x : RegNum) (kk : Byte)
  /-- 4xkk SNE Vx, kk (42_skip.md R58) -/
  | sneImm (x : RegNum) (kk : Byte)
  /-- 5xy0 SE Vx, Vy (42_skip.md R59) -/
  | seReg (x y : RegNum)
  /-- 6xkk LD Vx, kk (43_immediate.md R60) -/
  | ldImm (x : RegNum) (kk : Byte)
  /-- 7xkk ADD Vx, kk (43_immediate.md R61) -/
  | addImm (x : RegNum) (kk : Byte)
  /-- 8xy0 LD Vx, Vy (44_alu.md R63) -/
  | ldReg (x y : RegNum)
  /-- 8xy1 OR Vx, Vy (44_alu.md R64) -/
  | orReg (x y : RegNum)
  /-- 8xy2 AND Vx, Vy (44_alu.md R65) -/
  | andReg (x y : RegNum)
  /-- 8xy3 XOR Vx, Vy (44_alu.md R66) -/
  | xorReg (x y : RegNum)
  /-- 8xy4 ADD Vx, Vy (44_alu.md R67) -/
  | addReg (x y : RegNum)
  /-- 8xy5 SUB Vx, Vy (44_alu.md R68) -/
  | subReg (x y : RegNum)
  /-- 8xy6 SHR Vx (44_alu.md R69); y is decoded, kept and unused (30_encoding.md R46) -/
  | shr (x y : RegNum)
  /-- 8xy7 SUBN Vx, Vy (44_alu.md R70) -/
  | subnReg (x y : RegNum)
  /-- 8xyE SHL Vx (44_alu.md R71); y is decoded, kept and unused (30_encoding.md R46) -/
  | shl (x y : RegNum)
  deriving DecidableEq, Repr

end Sys2Proof
end

