-- ==== Sys2Proof/WellFormed.lean ====
section
/-! DEFINITION. Which instructions are well formed, through their assembly spelling (30_encoding.md R50): a
spelling is a mnemonic and raw operands, and the check says that the mnemonic takes these operands and that
each is in its range. -/

namespace Sys2Proof

/-- An operand as assembly writes it, its value not yet known to be in range (30_encoding.md R50). -/
inductive AsmOperand where
  /-- a register `Vn`, legal for n in 0 to 15 -/
  | reg (n : Nat)
  /-- an immediate byte kk, legal in 0x00 to 0xFF -/
  | byte (n : Nat)
  /-- an address nnn, legal in 0x000 to 0xFFF -/
  | addr (n : Nat)
  deriving DecidableEq, Repr

/-- An instruction as assembly writes it: a mnemonic and its operands (30_encoding.md R50). -/
structure Spelling where
  mnemonic : String
  operands : List AsmOperand
  deriving DecidableEq, Repr

/-- The operand's value is in the range its kind has (30_encoding.md R50: "a register as `V` followed by one
upper-case hex digit"; "kk in 0x00..0xFF, nnn in 0x000..0xFFF"). -/
def AsmOperand.wellFormed : AsmOperand → Bool
  | .reg n => decide (n < 16)
  | .byte n => decide (n < 256)
  | .addr n => decide (n < 4096)

/-- The mnemonic and operand shapes of the table (30_encoding.md R50): `SE`, `LD` and `ADD` are told apart by
whether the second operand is a register. -/
def Spelling.shapeKnown : Spelling → Bool
  | ⟨m, []⟩ => ["CLS", "RET"].elem m
  | ⟨m, [.addr _]⟩ => ["JP", "CALL"].elem m
  | ⟨m, [.reg _, .byte _]⟩ => ["SE", "SNE", "LD", "ADD"].elem m
  | ⟨m, [.reg _]⟩ => ["SHR", "SHL"].elem m
  | ⟨m, [.reg _, .reg y]⟩ =>
    ["SE", "LD", "OR", "AND", "XOR", "ADD", "SUB", "SUBN"].elem m || (["SHR", "SHL"].elem m && y != 0)
  | _ => false

/-- A well-formed spelling: a shape of the table with every operand in range (30_encoding.md R50). -/
def Spelling.wellFormed (p : Spelling) : Bool :=
  p.shapeKnown && p.operands.all AsmOperand.wellFormed

/-- The operands of a shift: `SHR Vx` when y is 0, `SHR Vx, Vy` for a word whose y is not 0, so that every
word has one spelling (30_encoding.md R50). -/
def shiftOperands (x y : RegNum) : List AsmOperand :=
  if y = 0 then [.reg x.toNat] else [.reg x.toNat, .reg y.toNat]

/-- The one spelling of an instruction (30_encoding.md R50). -/
def Instr.spelling : Instr → Spelling
  | .cls => ⟨"CLS", []⟩
  | .ret => ⟨"RET", []⟩
  | .jp nnn => ⟨"JP", [.addr nnn.toNat]⟩
  | .call nnn => ⟨"CALL", [.addr nnn.toNat]⟩
  | .seImm x kk => ⟨"SE", [.reg x.toNat, .byte kk.toNat]⟩
  | .sneImm x kk => ⟨"SNE", [.reg x.toNat, .byte kk.toNat]⟩
  | .seReg x y => ⟨"SE", [.reg x.toNat, .reg y.toNat]⟩
  | .ldImm x kk => ⟨"LD", [.reg x.toNat, .byte kk.toNat]⟩
  | .addImm x kk => ⟨"ADD", [.reg x.toNat, .byte kk.toNat]⟩
  | .ldReg x y => ⟨"LD", [.reg x.toNat, .reg y.toNat]⟩
  | .orReg x y => ⟨"OR", [.reg x.toNat, .reg y.toNat]⟩
  | .andReg x y => ⟨"AND", [.reg x.toNat, .reg y.toNat]⟩
  | .xorReg x y => ⟨"XOR", [.reg x.toNat, .reg y.toNat]⟩
  | .addReg x y => ⟨"ADD", [.reg x.toNat, .reg y.toNat]⟩
  | .subReg x y => ⟨"SUB", [.reg x.toNat, .reg y.toNat]⟩
  | .shr x y => ⟨"SHR", shiftOperands x y⟩
  | .subnReg x y => ⟨"SUBN", [.reg x.toNat, .reg y.toNat]⟩
  | .shl x y => ⟨"SHL", shiftOperands x y⟩

/-- The instruction a two-register mnemonic names. -/
def regRegInstr (m : String) (x y : RegNum) : Option Instr :=
  if m = "SE" then some (.seReg x y)
  else if m = "LD" then some (.ldReg x y)
  else if m = "OR" then some (.orReg x y)
  else if m = "AND" then some (.andReg x y)
  else if m = "XOR" then some (.xorReg x y)
  else if m = "ADD" then some (.addReg x y)
  else if m = "SUB" then some (.subReg x y)
  else if m = "SUBN" then some (.subnReg x y)
  else if m = "SHR" then some (.shr x y)
  else if m = "SHL" then some (.shl x y)
  else none

/-- The instruction a register-and-byte mnemonic names. -/
def regByteInstr (m : String) (x : RegNum) (kk : Byte) : Option Instr :=
  if m = "SE" then some (.seImm x kk)
  else if m = "SNE" then some (.sneImm x kk)
  else if m = "LD" then some (.ldImm x kk)
  else if m = "ADD" then some (.addImm x kk)
  else none

/-- The instruction a well-formed spelling stands for; an ill-formed one stands for none (30_encoding.md R50). -/
def Spelling.instr? (p : Spelling) : Option Instr :=
  if p.wellFormed then
    match p with
    | ⟨m, []⟩ => if m = "CLS" then some .cls else if m = "RET" then some .ret else none
    | ⟨m, [.addr a]⟩ =>
      if m = "JP" then some (.jp (BitVec.ofNat 12 a))
      else if m = "CALL" then some (.call (BitVec.ofNat 12 a)) else none
    | ⟨m, [.reg x, .byte k]⟩ => regByteInstr m (BitVec.ofNat 4 x) (BitVec.ofNat 8 k)
    | ⟨m, [.reg x]⟩ => regRegInstr m (BitVec.ofNat 4 x) 0
    | ⟨m, [.reg x, .reg y]⟩ => regRegInstr m (BitVec.ofNat 4 x) (BitVec.ofNat 4 y)
    | _ => none
  else none

/-- A well-formed instruction: one whose spelling is well formed. The fields of `Instr` have the widths of the
word's own fields, so this holds of every `Instr` (30_encoding.md R43: "structurally bounded"; the lemma
`instr_wellFormed` in Sys2Proof/Laws/Syntax.lean); the check has something to refuse where raw operands come
in, in a `Spelling`. -/
def Instr.wellFormed (i : Instr) : Bool := i.spelling.wellFormed

end Sys2Proof
end

