-- ==== Sys2Proof/Decode.lean ====
section
/-! DEFINITION. Decoding a word (30_encoding.md R42 to R47), the opcode table as data (R44), and the encoder,
written from the same patterns. -/

namespace Sys2Proof

/-! ### The fields of a word (30_encoding.md R42) -/

/-- op, bits 15:12: selects the instruction group. -/
def opField (w : Word) : Nibble := w.extractLsb' 12 4

/-- x, bits 11:8: the first operand register. -/
def xField (w : Word) : RegNum := w.extractLsb' 8 4

/-- y, bits 7:4: the second operand register. -/
def yField (w : Word) : RegNum := w.extractLsb' 4 4

/-- n, bits 3:0: a selector in groups 5 and 8 (90_conflicts.md C9). -/
def nField (w : Word) : Nibble := w.extractLsb' 0 4

/-- kk, bits 7:0: the immediate byte. -/
def kkField (w : Word) : Byte := w.extractLsb' 0 8

/-- nnn, bits 11:0: the address operand. -/
def nnnField (w : Word) : Addr12 := w.extractLsb' 0 12

/-! ### Decode (30_encoding.md R45) -/

/-- Why the decoder rejects. -/
inductive DecodeError where
  /-- the word matches no row of the table (30_encoding.md R47); the step raises UnknownInstruction -/
  | unknownInstruction (w : Word)
  /-- fewer than the two bytes an instruction has (30_encoding.md R41); no fetch of the core gives so few -/
  | truncated
  deriving DecidableEq, Repr

/-- Group 8: the fourth nibble selects (30_encoding.md R45). -/
def decodeAlu (w : Word) : Except DecodeError Instr :=
  let x := xField w
  let y := yField w
  if nField w = 0x0 then .ok (.ldReg x y)
  else if nField w = 0x1 then .ok (.orReg x y)
  else if nField w = 0x2 then .ok (.andReg x y)
  else if nField w = 0x3 then .ok (.xorReg x y)
  else if nField w = 0x4 then .ok (.addReg x y)
  else if nField w = 0x5 then .ok (.subReg x y)
  else if nField w = 0x6 then .ok (.shr x y)
  else if nField w = 0x7 then .ok (.subnReg x y)
  else if nField w = 0xE then .ok (.shl x y)
  else .error (.unknownInstruction w)

/-- Decode, total on every 16-bit word, in the order of 30_encoding.md R45. -/
def decode (w : Word) : Except DecodeError Instr :=
  if w = 0x00E0 then .ok .cls
  else if w = 0x00EE then .ok .ret
  else if opField w = 0x1 then .ok (.jp (nnnField w))
  else if opField w = 0x2 then .ok (.call (nnnField w))
  else if opField w = 0x3 then .ok (.seImm (xField w) (kkField w))
  else if opField w = 0x4 then .ok (.sneImm (xField w) (kkField w))
  else if opField w = 0x5 ∧ nField w = 0x0 then .ok (.seReg (xField w) (yField w))
  else if opField w = 0x6 then .ok (.ldImm (xField w) (kkField w))
  else if opField w = 0x7 then .ok (.addImm (xField w) (kkField w))
  else if opField w = 0x8 then decodeAlu w
  else .error (.unknownInstruction w)

/-- The word two bytes make, the first the more significant: instruction words are big-endian
(20_memory.md R31, R32). -/
def wordOfBytes (hi lo : Byte) : Word := hi ++ lo

/-- The byte of a word at the lower address, bits 15:8 (20_memory.md R32). -/
def highByte (w : Word) : Byte := w.extractLsb' 8 8

/-- The byte of a word at the higher address, bits 7:0 (20_memory.md R32). -/
def lowByte (w : Word) : Byte := w.extractLsb' 0 8

/-- The word's two bytes in address order (20_memory.md R32). -/
def bytesOfWord (w : Word) : List Byte := [highByte w, lowByte w]

/-- Decode any list of bytes: one instruction is its first two bytes (30_encoding.md R41); the rest comes back. -/
def decodeBytes : List Byte → Except DecodeError (Instr × List Byte)
  | hi :: lo :: rest =>
    match decode (wordOfBytes hi lo) with
    | .ok i => .ok (i, rest)
    | .error e => .error e
  | _ => .error .truncated

/-! ### The encoder -/

/-- A word of the form `op x kk` (30_encoding.md R42). -/
def packXkk (op : Nibble) (x : RegNum) (kk : Byte) : Word := op ++ x ++ kk

/-- A word of the form `op x y n` (30_encoding.md R42). -/
def packXyn (op : Nibble) (x y : RegNum) (n : Nibble) : Word := op ++ x ++ y ++ n

/-- A word of the form `op nnn` (30_encoding.md R42). -/
def packNnn (op : Nibble) (nnn : Addr12) : Word := op ++ nnn

/-- The word of an instruction, from the patterns of 30_encoding.md R44. Every instruction has exactly one:
the ignored y of SHR and SHL is kept as an operand (30_encoding.md R46). -/
def encode : Instr → Word
  | .cls => 0x00E0
  | .ret => 0x00EE
  | .jp nnn => packNnn 0x1 nnn
  | .call nnn => packNnn 0x2 nnn
  | .seImm x kk => packXkk 0x3 x kk
  | .sneImm x kk => packXkk 0x4 x kk
  | .seReg x y => packXyn 0x5 x y 0x0
  | .ldImm x kk => packXkk 0x6 x kk
  | .addImm x kk => packXkk 0x7 x kk
  | .ldReg x y => packXyn 0x8 x y 0x0
  | .orReg x y => packXyn 0x8 x y 0x1
  | .andReg x y => packXyn 0x8 x y 0x2
  | .xorReg x y => packXyn 0x8 x y 0x3
  | .addReg x y => packXyn 0x8 x y 0x4
  | .subReg x y => packXyn 0x8 x y 0x5
  | .shr x y => packXyn 0x8 x y 0x6
  | .subnReg x y => packXyn 0x8 x y 0x7
  | .shl x y => packXyn 0x8 x y 0xE

/-- The two bytes of an instruction in address order. -/
def encodeBytes (i : Instr) : List Byte := bytesOfWord (encode i)

/-! ### Assembly text (30_encoding.md R50) -/

/-- An upper-case hexadecimal digit. -/
def hexDigit (n : Nat) : String :=
  ["0", "1", "2", "3", "4", "5", "6", "7", "8", "9", "A", "B", "C", "D", "E", "F"].getD n "?"

/-- An operand as text: a register as `V` and one hex digit, a byte as a two-digit and an address as a
three-digit hex literal (30_encoding.md R50). -/
def AsmOperand.text : AsmOperand → String
  | .reg n => "V" ++ hexDigit n
  | .byte n => "0x" ++ hexDigit (n / 16) ++ hexDigit (n % 16)
  | .addr n => "0x" ++ hexDigit (n / 256) ++ hexDigit (n / 16 % 16) ++ hexDigit (n % 16)

/-- The operands as text, separated by a comma and a space (30_encoding.md R50). -/
def operandsText : List AsmOperand → String
  | [] => ""
  | [o] => o.text
  | o :: os => o.text ++ ", " ++ operandsText os

/-- A spelling as text: the mnemonic, then a space and the operands where it has any (30_encoding.md R50). -/
def Spelling.text : Spelling → String
  | ⟨m, []⟩ => m
  | ⟨m, o :: os⟩ => m ++ " " ++ operandsText (o :: os)

/-! ### The opcode table as data (30_encoding.md R44) -/

/-- One row of the opcode table: a word w matches it when `w & mask = value`. -/
structure OpcodeRow where
  mnemonic : String
  mask : Word
  value : Word
  deriving DecidableEq, Repr

/-- The word matches the row (30_encoding.md R44: "when `w & mask = match`"). -/
def OpcodeRow.accepts (r : OpcodeRow) (w : Word) : Bool := w &&& r.mask == r.value

/-- The row of 30_encoding.md R44 an instruction belongs to. -/
def Instr.row : Instr → OpcodeRow
  | .cls => ⟨"CLS", 0xFFFF, 0x00E0⟩
  | .ret => ⟨"RET", 0xFFFF, 0x00EE⟩
  | .jp _ => ⟨"JP", 0xF000, 0x1000⟩
  | .call _ => ⟨"CALL", 0xF000, 0x2000⟩
  | .seImm _ _ => ⟨"SE_Vx__kk", 0xF000, 0x3000⟩
  | .sneImm _ _ => ⟨"SNE_Vx__kk", 0xF000, 0x4000⟩
  | .seReg _ _ => ⟨"SE_Vx__Vy", 0xF00F, 0x5000⟩
  | .ldImm _ _ => ⟨"LD_Vx__kk", 0xF000, 0x6000⟩
  | .addImm _ _ => ⟨"ADD_Vx__kk", 0xF000, 0x7000⟩
  | .ldReg _ _ => ⟨"LD_Vx__Vy", 0xF00F, 0x8000⟩
  | .orReg _ _ => ⟨"OR_Vx__Vy", 0xF00F, 0x8001⟩
  | .andReg _ _ => ⟨"AND_Vx__Vy", 0xF00F, 0x8002⟩
  | .xorReg _ _ => ⟨"XOR_Vx__Vy", 0xF00F, 0x8003⟩
  | .addReg _ _ => ⟨"ADD_Vx__Vy", 0xF00F, 0x8004⟩
  | .subReg _ _ => ⟨"SUB_Vx__Vy", 0xF00F, 0x8005⟩
  | .shr _ _ => ⟨"SHR_Vx", 0xF00F, 0x8006⟩
  | .subnReg _ _ => ⟨"SUBN_Vx__Vy", 0xF00F, 0x8007⟩
  | .shl _ _ => ⟨"SHL_Vx", 0xF00F, 0x800E⟩

/-- The 18 rows of 30_encoding.md R44, in the table's order. -/
def opcodeRows : List OpcodeRow :=
  [Instr.row .cls, Instr.row .ret, Instr.row (.jp 0), Instr.row (.call 0), Instr.row (.seImm 0 0),
   Instr.row (.sneImm 0 0), Instr.row (.seReg 0 0), Instr.row (.ldImm 0 0), Instr.row (.addImm 0 0)] ++
  [Instr.row (.ldReg 0 0), Instr.row (.orReg 0 0), Instr.row (.andReg 0 0), Instr.row (.xorReg 0 0),
   Instr.row (.addReg 0 0), Instr.row (.subReg 0 0), Instr.row (.shr 0 0), Instr.row (.subnReg 0 0),
   Instr.row (.shl 0 0)]

/-! ### The host's question -/

/-- The instruction word whose bits the opcode table numbers as `w`, of which the row gives `nbits`. -/
def tableWord (nbits w : Nat) : Word := BitVec.ofNat 16 (w % 2 ^ nbits)

/-- The instruction the decoder reads from a table row's word, laid out in memory order (20_memory.md R32).
No instruction is longer than 16 bits (30_encoding.md R41). -/
def decodeTableWord (nbits w : Nat) : Option Instr :=
  if 16 < nbits then none
  else
    match decodeBytes (bytesOfWord (tableWord nbits w)) with
    | .ok (i, []) => some i
    | _ => none

end Sys2Proof
end

