-- ==== Sys2Proof/Config.lean ====
section
/-! DEFINITION. The machine's one open parameter, FONT (00_scope.md R8), and its entry point. The other
parameters of 00_scope.md R7 are widths and lengths, and stand in the types and bounds that use them. -/

namespace Sys2Proof.Config

/-- PC_RESET (00_scope.md R7). -/
def pcReset : Addr := 0x0200#16

/-- FONT, the 80 bytes construction copies to 0x000..0x04F: a parameter the source gives no values for
(00_scope.md R8, 10_state.md R25, 92_eei_decisions.md D9). It has no body: nothing can be proved of its
value, so a claim about these bytes takes `FontIsConventional` (or another fact about them) as a hypothesis.
DEDUCED, safe: assumption log 1. -/
opaque font : Vector Byte 80

/-- The conventional CHIP-8 hexadecimal font, the default table of 10_state.md R25 [there: from general
knowledge, not in source]: 16 glyphs of 5 bytes, glyph g at 5g .. 5g+4. -/
def conventionalFont : List Byte :=
  [0xF0, 0x90, 0x90, 0x90, 0xF0,  0x20, 0x60, 0x20, 0x20, 0x70,
   0xF0, 0x10, 0xF0, 0x80, 0xF0,  0xF0, 0x10, 0xF0, 0x10, 0xF0] ++
  [0x90, 0x90, 0xF0, 0x10, 0x10,  0xF0, 0x80, 0xF0, 0x10, 0xF0,
   0xF0, 0x80, 0xF0, 0x90, 0xF0,  0xF0, 0x10, 0x20, 0x40, 0x40] ++
  [0xF0, 0x90, 0xF0, 0x90, 0xF0,  0xF0, 0x90, 0xF0, 0x10, 0xF0,
   0xF0, 0x90, 0xF0, 0x90, 0x90,  0xE0, 0x90, 0xE0, 0x90, 0xE0] ++
  [0xF0, 0x80, 0x80, 0x80, 0xF0,  0xE0, 0x90, 0x90, 0x90, 0xE0,
   0xF0, 0x80, 0xF0, 0x80, 0xF0,  0xF0, 0x80, 0xF0, 0x80, 0x80]

/-- The hypothesis a claim names when it depends on the font bytes (10_state.md R25: "a claim that depends
on fetching them must name FONT as a hypothesis"). -/
def FontIsConventional : Prop := font.toList = conventionalFont

end Sys2Proof.Config
end

