-- ==== Sys2Proof/Machine/State.lean ====
section
/-! DEFINITION. The Machine State (10_state.md R13) with the fault status (R24), the two ways a step can stop
other than by a next state, and the state right after construction (10_state.md R26). -/

namespace Sys2Proof.Machine

/-- Memory: (address, byte) pairs in one canonical form (`Memory.wf`, in Ops): addresses strictly rising and
below 4096, and no pair equal to what an unlisted address reads as (`Memory.unlisted`). -/
abbrev Memory := List Host.Cell

/-- The five faults (60_exceptions.md R73). -/
inductive FaultCode where
  /-- 1, raised by decode: the word matches no row (60_exceptions.md R74) -/
  | unknownInstruction
  /-- 2, raised by CALL with sp = 15 (60_exceptions.md R75) -/
  | stackOverflow
  /-- 3, raised by RET with sp = 0 (60_exceptions.md R76) -/
  | stackUnderflow
  /-- 4, raised by the fetch at an odd pc (60_exceptions.md R77) -/
  | misalignedFetch
  /-- 5, raised by the fetch with pc > 0xFFE (60_exceptions.md R78) -/
  | fetchOutOfBounds
  deriving DecidableEq, Repr

/-- The record a fault leaves: `(code, pc, word)`, pc at the start of the faulting step, the fetched word or
none where the fetch itself faulted (60_exceptions.md R73). -/
structure FaultRecord where
  code : FaultCode
  pc : Addr
  word : Option Word
  deriving DecidableEq, Repr

/-- Everything the core holds: "exactly one aggregate of state" (10_state.md R13), and the fault status
(10_state.md R24). -/
structure State where
  /-- memory, 4096 bytes (20_memory.md R28) -/
  mem : Memory
  /-- V0 to VF (10_state.md R14, R15) -/
  v : Vector Byte 16
  /-- I, the index register (10_state.md R17) -/
  i : Addr
  /-- the program counter (10_state.md R18) -/
  pc : Addr
  /-- the call stack, 16 slots (10_state.md R20) -/
  stack : Vector Addr 16
  /-- the stack pointer: index of the last pushed entry, 0 when empty (10_state.md R21) -/
  sp : Byte
  /-- DT, the delay timer (10_state.md R22) -/
  dt : Byte
  /-- ST, the sound timer (10_state.md R22) -/
  st : Byte
  /-- the frame buffer, fb[row][col], 32 rows of 64 pixels (10_state.md R23) -/
  fb : Vector (Vector Pixel 64) 32
  /-- the fault status, which no instruction can read (10_state.md R24) -/
  fault : Option FaultRecord
  deriving DecidableEq, Repr

/-- Why a step answers a fault instead of a next state. (Raising one of the five faults of the spec is a NEXT
state, with the record in `State.fault`: 60_exceptions.md R81 and assumption log 2.) -/
inductive Fault where
  /-- Raised by the step of a core that has faulted: it takes no further step, and answers the fault again
  (60_exceptions.md R82). Safe: the spec gives no transition there. -/
  | halted (record : FaultRecord)
  /-- Raised by CALL and RET where sp is above 15, outside the legal range (10_state.md R21), so that the stack
  has no such slot. No run reaches such a state (the invariant `Inv` of Sys2Proof/Safety.lean). Safe: it stops
  where the spec gives nothing; assumption log 3. -/
  | stackPointerOutOfRange (sp : Byte)
  deriving DecidableEq, Repr

/-- Why a step refuses. -/
inductive Refusal where
  /-- Raised by an arm of exec whose instruction has no meaning yet. Safe: nothing is claimed of it. No arm
  raises it: every instruction of the table has its meaning. -/
  | notModelled (mnemonic : String)
  deriving DecidableEq, Repr

/-- The frame buffer with every pixel 0 (10_state.md R26, 40_display.md R53). -/
def blankFrame : Vector (Vector Pixel 64) 32 := Vector.replicate 32 (Vector.replicate 64 0)

/-- The state after construction, the only reset (10_state.md R26, 70_reset_and_hazards.md R90, R92). Memory
lists nothing: an unlisted address reads as construction leaves it, FONT below 0x050 and 0x00 from there. -/
def State.reset : State where
  mem := []
  v := Vector.replicate 16 0
  i := 0
  pc := Config.pcReset
  stack := Vector.replicate 16 0
  sp := 0
  dt := 0
  st := 0
  fb := blankFrame
  fault := none

end Sys2Proof.Machine
end

