-- ==== Sys2Proof/Machine/Ops.lean ====
section
/-! DEFINITION. The named operations over memory, registers, the stack and the program counter, and raising a
fault. Every meaning is written over these. -/

namespace Sys2Proof.Machine

/-- What executing an instruction, or taking a step, answers. -/
abbrev Result := Host.Outcome State Fault Refusal

/-! ### Memory (20_memory.md R28, R30) -/

/-- What an address reads as that no pair lists: what construction leaves there, FONT in 0x000..0x04F and 0x00
elsewhere (10_state.md R26, 20_memory.md R30). -/
def Memory.unlisted (a : Nat) : Byte :=
  if h : a < 80 then Config.font[a] else 0

/-- The byte a pair lists for the address. -/
def Memory.lookup : Memory → Nat → Option Byte
  | [], _ => none
  | (a', b) :: m, a => if a = a' then some b else Memory.lookup m a

/-- MemRead(a, 1) (00_scope.md R10). The caller, the fetch, asks for addresses 0x000 to 0xFFF only
(20_memory.md R34). -/
def Memory.read (m : Memory) (a : Nat) : Byte :=
  (Memory.lookup m a).getD (Memory.unlisted a)

/-- Put a pair in its place, over the pair of the same address if there is one. -/
def Memory.insert (a : Nat) (b : Byte) : Memory → Memory
  | [] => [(a, b)]
  | (a', b') :: m =>
    if a < a' then (a, b) :: (a', b') :: m
    else if a = a' then (a, b) :: m
    else (a', b') :: Memory.insert a b m

/-- Take out the pair of an address. -/
def Memory.erase (a : Nat) : Memory → Memory
  | [] => []
  | (a', b') :: m => if a = a' then Memory.erase a m else (a', b') :: Memory.erase a m

/-- MemWrite(a, 1, b), the host loader's primitive: no instruction writes memory (00_scope.md R10, 20_memory.md
R28). Writing what an unlisted address reads as takes the pair out, so the form stays canonical. There is no
address above 0xFFF, and nothing is written there. -/
def Memory.write (m : Memory) (a : Nat) (b : Byte) : Memory :=
  if a < 4096 then
    if b = Memory.unlisted a then Memory.erase a m else Memory.insert a b m
  else m

/-- Write bytes at rising addresses from `a` (the loader, 70_reset_and_hazards.md R97). -/
def Memory.writeBytes (m : Memory) (a : Nat) : List Byte → Memory
  | [] => m
  | b :: bs => Memory.write (Memory.writeBytes m (a + 1) bs) a b

/-- The canonical form: addresses strictly rising and below 4096, no pair equal to what an unlisted address
reads as. -/
def Memory.wf : Memory → Bool
  | [] => true
  | (a, b) :: m =>
    decide (a < 4096) && decide (b ≠ Memory.unlisted a) && m.all (fun c => decide (a < c.1)) && Memory.wf m

/-! ### Registers (10_state.md R14) -/

/-- `V[x]`. -/
def State.reg (s : State) (x : RegNum) : Byte := s.v[x.toNat]'x.isLt

/-- `V[x] <- b`: every register, VF too, is an ordinary slot (10_state.md R14, R15). -/
def State.setReg (s : State) (x : RegNum) (b : Byte) : State :=
  { s with v := s.v.set x.toNat b x.isLt }

/-- Write V[x], then the flag into VF as the last write, so that for x = 15 the flag stays
(00_scope.md R11, 10_state.md R15, 90_conflicts.md C2). -/
def State.setRegThenFlag (s : State) (x : RegNum) (result flag : Byte) : State :=
  (s.setReg x result).setReg vf flag

/-! ### The call stack (10_state.md R20, R21) -/

/-- Push a return address: the pointer moves first, then the slot it points to is written (41_flow.md R56).
None where the array has no such slot. -/
def State.push (s : State) (a : Addr) : Option State :=
  if h : s.sp.toNat + 1 < 16 then
    some { s with sp := s.sp + 1, stack := s.stack.set (s.sp.toNat + 1) a h }
  else none

/-- Pop a return address: the slot the pointer points to is read, then the pointer moves; the slot keeps its
value (41_flow.md R54). None where the array has no such slot. -/
def State.pop (s : State) : Option (Addr × State) :=
  if h : s.sp.toNat < 16 then some (s.stack[s.sp.toNat], { s with sp := s.sp - 1 }) else none

/-! ### The frame buffer (10_state.md R23) -/

/-- `fb[row][col]`. -/
def State.pixel (s : State) (row : Fin 32) (col : Fin 64) : Pixel := s.fb[row][col]

/-- Write 0 to every pixel (40_display.md R53). -/
def State.clearFrame (s : State) : State := { s with fb := blankFrame }

/-! ### Control-flow actions (30_encoding.md R51) -/

/-- What an instruction's execution returns to the step (30_encoding.md R51). -/
inductive Action where
  /-- advance pc by 2 -/
  | next
  /-- advance pc by 4, past the following instruction, which is not looked at -/
  | skip
  /-- set pc to the address -/
  | jump (a : Addr)
  deriving DecidableEq, Repr

/-- The pc after the action, in 16-bit arithmetic (20_memory.md R36). -/
def Action.target (pc : Addr) : Action → Addr
  | .next => pc + 2
  | .skip => pc + 4
  | .jump a => a

/-- Apply the action to pc (20_memory.md R36). -/
def State.act (s : State) (a : Action) : State := { s with pc := a.target s.pc }

/-- An instruction completes: its writes are in `s`, and the action moves pc (20_memory.md R36). -/
def complete (s : State) (a : Action) : Result := .next (s.act a)

/-- Skip if the condition holds, else Next (42_skip.md R57 to R59). -/
def skipIf (c : Bool) : Action := if c then .skip else .next

/-! ### Raising a fault (60_exceptions.md R81) -/

/-- The number the spec gives the fault (60_exceptions.md R73). -/
def FaultCode.number : FaultCode → Nat
  | .unknownInstruction => 1
  | .stackOverflow => 2
  | .stackUnderflow => 3
  | .misalignedFetch => 4
  | .fetchOutOfBounds => 5

/-- Fault entry: nothing is written but the record; pc still addresses the faulting instruction or fetch
(60_exceptions.md R81). It is a next state, whose own step then answers `Fault.halted`; there is no return from
a fault (60_exceptions.md R82). Assumption log 2. -/
def raise (code : FaultCode) (word : Option Word) (s : State) : Result :=
  .next { s with fault := some ⟨code, s.pc, word⟩ }

end Sys2Proof.Machine
end

