-- ==== Sys2Proof/Machine/Flags.lean ====
section
/-! DEFINITION. The 8-bit unsigned ALU and its flags (44_alu.md R62): results modulo 256, flags 0 or 1, computed
from the operands as they were before any write (00_scope.md R11). -/

namespace Sys2Proof.Machine

/-- A flag value: 1 or 0 (44_alu.md R62). -/
def flagOf (b : Bool) : Byte := if b then 1 else 0

/-- a + b modulo 256 (44_alu.md R62, R67; 43_immediate.md R61). -/
def aluAdd (a b : Byte) : Byte := BitVec.ofNat 8 (a.toNat + b.toNat)

/-- The carry of a + b: the exact sum is 256 or more (44_alu.md R62, R67). -/
def carryFlag (a b : Byte) : Byte := flagOf (decide (a.toNat + b.toNat ≥ 256))

/-- a - b modulo 256, as a - b + 256 (44_alu.md R62, R68). -/
def aluSub (a b : Byte) : Byte := BitVec.ofNat 8 (a.toNat + 256 - b.toNat)

/-- The borrow of a - b: 1 exactly when a < b, this hardware's polarity (44_alu.md R62, R68;
90_conflicts.md C4). -/
def borrowFlag (a b : Byte) : Byte := flagOf (decide (a.toNat < b.toNat))

/-- a >> 1: bit 7 becomes 0 (44_alu.md R69). -/
def aluShr (a : Byte) : Byte := a >>> 1

/-- The bit SHR shifts out: bit 0 before the shift (44_alu.md R69). -/
def lowBitFlag (a : Byte) : Byte := flagOf (a.getLsbD 0)

/-- The low 8 bits of a << 1: bit 0 becomes 0 (44_alu.md R71). -/
def aluShl (a : Byte) : Byte := a <<< 1

/-- The bit SHL shifts out: bit 7 before the shift (44_alu.md R71). -/
def highBitFlag (a : Byte) : Byte := flagOf (a.getLsbD 7)

end Sys2Proof.Machine
end

