-- ==== Sys2Proof/Machine/Operands.lean ====
section
/-! DEFINITION. The operand forms (30_encoding.md R43): a register, an immediate byte, a 12-bit absolute
address, and the return address a CALL pushes. -/

namespace Sys2Proof.Machine

/-- The address operand nnn as a jump target: zero-extended to 16 bits, not scaled and not pc-relative
(30_encoding.md R43). -/
def jumpTarget (nnn : Addr12) : Addr := nnn.setWidth 16

/-- The register operand: the value of V[x] before the instruction writes anything (00_scope.md R11). -/
abbrev regOperand (s : State) (x : RegNum) : Byte := s.reg x

/-- The immediate operand kk: 8 bits, used as it is (30_encoding.md R43). -/
abbrev immOperand (kk : Byte) : Byte := kk

/-- The return address a CALL pushes: the address of the next instruction, pc + 2 (41_flow.md R56,
90_conflicts.md C1). -/
abbrev returnAddress (s : State) : Addr := s.pc + 2

end Sys2Proof.Machine
end

