-- ==== Sys2Proof/Machine/Alu.lean ====
section
/-! DEFINITION. Register ALU operations 8xyN (44_alu.md). Operands are read from the state before any write, and
the flag, where the instruction has one, is written last (00_scope.md R11). -/

namespace Sys2Proof.Machine

/-- LD Vx, Vy (44_alu.md R63). -/
def execLdReg (x y : RegNum) (s : State) : Result :=
  complete (s.setReg x (regOperand s y)) .next

/-- OR Vx, Vy: VF is not written as a flag (44_alu.md R64). -/
def execOrReg (x y : RegNum) (s : State) : Result :=
  complete (s.setReg x (regOperand s x ||| regOperand s y)) .next

/-- AND Vx, Vy: VF is not written as a flag (44_alu.md R65). -/
def execAndReg (x y : RegNum) (s : State) : Result :=
  complete (s.setReg x (regOperand s x &&& regOperand s y)) .next

/-- XOR Vx, Vy: VF is not written as a flag (44_alu.md R66). -/
def execXorReg (x y : RegNum) (s : State) : Result :=
  complete (s.setReg x (regOperand s x ^^^ regOperand s y)) .next

/-- ADD Vx, Vy; VF = carry (44_alu.md R67). -/
def execAddReg (x y : RegNum) (s : State) : Result :=
  let a := regOperand s x
  let b := regOperand s y
  complete (s.setRegThenFlag x (aluAdd a b) (carryFlag a b)) .next

/-- SUB Vx, Vy; VF = borrow of Vx - Vy (44_alu.md R68). -/
def execSubReg (x y : RegNum) (s : State) : Result :=
  let a := regOperand s x
  let b := regOperand s y
  complete (s.setRegThenFlag x (aluSub a b) (borrowFlag a b)) .next

/-- SHR Vx; VF = bit 0 before the shift; y is not used (44_alu.md R69). -/
def execShr (x _y : RegNum) (s : State) : Result :=
  let a := regOperand s x
  complete (s.setRegThenFlag x (aluShr a) (lowBitFlag a)) .next

/-- SUBN Vx, Vy; VF = borrow of Vy - Vx (44_alu.md R70). -/
def execSubnReg (x y : RegNum) (s : State) : Result :=
  let a := regOperand s x
  let b := regOperand s y
  complete (s.setRegThenFlag x (aluSub b a) (borrowFlag b a)) .next

/-- SHL Vx; VF = bit 7 before the shift; y is not used (44_alu.md R71). -/
def execShl (x _y : RegNum) (s : State) : Result :=
  let a := regOperand s x
  complete (s.setRegThenFlag x (aluShl a) (highBitFlag a)) .next

end Sys2Proof.Machine
end

