-- ==== Sys2Proof/Machine/Display.lean ====
section
/-! DEFINITION. The display instruction (40_display.md). -/

namespace Sys2Proof.Machine

/-- CLS: every pixel becomes 0; Next (40_display.md R53). -/
def execCls (s : State) : Result := complete s.clearFrame .next

end Sys2Proof.Machine
end

