-- ==== Sys2Proof/Machine/Flow.lean ====
section
/-! DEFINITION. Control transfer: RET, JP, CALL (41_flow.md). -/

namespace Sys2Proof.Machine

/-- RET (41_flow.md R54): an empty stack raises StackUnderflow; else jump to the slot the pointer points to, the
pointer going down after the read. -/
def execRet (s : State) : Result :=
  if s.sp = 0 then raise .stackUnderflow (some (encode .ret)) s
  else
    match s.pop with
    | some (target, s') => complete s' (.jump target)
    | none => .fault (.stackPointerOutOfRange s.sp)

/-- JP nnn (41_flow.md R55). -/
def execJp (nnn : Addr12) (s : State) : Result := complete s (.jump (jumpTarget nnn))

/-- CALL nnn (41_flow.md R56): sp = 15 raises StackOverflow; else push the address of the next instruction and
jump. The record's word is the CALL's own word, which has this one encoding (assumption log 4). -/
def execCall (nnn : Addr12) (s : State) : Result :=
  if s.sp = 15 then raise .stackOverflow (some (encode (.call nnn))) s
  else
    match s.push (returnAddress s) with
    | some s' => complete s' (.jump (jumpTarget nnn))
    | none => .fault (.stackPointerOutOfRange s.sp)

end Sys2Proof.Machine
end

