-- ==== Sys2Proof/Machine/Immediate.lean ====
section
/-! DEFINITION. Immediate load and add (43_immediate.md): no flag is written. -/

namespace Sys2Proof.Machine

/-- LD Vx, kk (43_immediate.md R60). -/
def execLdImm (x : RegNum) (kk : Byte) (s : State) : Result :=
  complete (s.setReg x (immOperand kk)) .next

/-- ADD Vx, kk, modulo 256, the carry discarded (43_immediate.md R61). -/
def execAddImm (x : RegNum) (kk : Byte) (s : State) : Result :=
  complete (s.setReg x (aluAdd (regOperand s x) (immOperand kk))) .next

end Sys2Proof.Machine
end

