-- ==== Sys2Proof/Machine/Skip.lean ====
section
/-! DEFINITION. Conditional skips (42_skip.md): no register and no flag is written. -/

namespace Sys2Proof.Machine

/-- SE Vx, kk (42_skip.md R57). -/
def execSeImm (x : RegNum) (kk : Byte) (s : State) : Result :=
  complete s (skipIf (regOperand s x == immOperand kk))

/-- SNE Vx, kk (42_skip.md R58). -/
def execSneImm (x : RegNum) (kk : Byte) (s : State) : Result :=
  complete s (skipIf (regOperand s x != immOperand kk))

/-- SE Vx, Vy (42_skip.md R59). -/
def execSeReg (x y : RegNum) (s : State) : Result :=
  complete s (skipIf (regOperand s x == regOperand s y))

end Sys2Proof.Machine
end

