-- ==== Sys2Proof/Machine/Fetch.lean ====
section
/-! DEFINITION. The instruction fetch (20_memory.md R31), the phases of one step around the execution of an
instruction (20_memory.md R36), and placing an instruction where the next fetch reads it. Machine/Step.lean only
calls these. -/

namespace Sys2Proof.Machine

/-- Fetch (20_memory.md R31): an odd pc is checked first (R33), then the bound (R34), then the two bytes are
read, the one at pc the more significant (R32). It reads, and writes nothing. -/
def fetch (s : State) : Except FaultCode Word :=
  if s.pc.getLsbD 0 then .error .misalignedFetch
  else if s.pc.toNat > 0x0FFE then .error .fetchOutOfBounds
  else .ok (wordOfBytes (s.mem.read s.pc.toNat) (s.mem.read (s.pc.toNat + 1)))

/-- One step over a given execution (20_memory.md R36), its checks in the order of 60_exceptions.md R80: a
faulted core takes no step (60_exceptions.md R82); fetch; decode; execute. A fault of the fetch records no word,
an unknown word is recorded (60_exceptions.md R73). -/
def cycle (execute : Instr → State → Result) (s : State) : Result :=
  match s.fault with
  | some r => .fault (.halted r)
  | none =>
    match fetch s with
    | .error code => raise code none s
    | .ok w =>
      match decode w with
      | .error _ => raise .unknownInstruction (some w) s
      | .ok i => execute i s

/-- The state with a word stored at pc and pc + 1, big-endian (20_memory.md R32). -/
def State.placeWord (s : State) (w : Word) : State :=
  { s with mem := (s.mem.write s.pc.toNat (highByte w)).write (s.pc.toNat + 1) (lowByte w) }

end Sys2Proof.Machine
end

