-- ==== Sys2Proof/Machine/Step.lean ====
section
/-! DEFINITION. One step of the machine (20_memory.md R36). -/

namespace Sys2Proof.Machine

/-- The single-step operation: a next state (the instruction's effect, or a raised fault's record), or a fault
where the core has faulted before (20_memory.md R36, 60_exceptions.md R81, R82). -/
def step (s : State) : Host.Outcome State Fault Refusal := cycle exec s

/-- The state with the table word `w` (of which the row gives `nbits`) where the next fetch reads it: at pc and
pc + 1. Nothing but these two bytes changes: the core fetches at its pc (20_memory.md R31). It stands for the
host's Load (70_reset_and_hazards.md R97), assumption log 6. -/
def State.withFetchWord (s : State) (nbits w : Nat) : State := s.placeWord (tableWord nbits w)

end Sys2Proof.Machine
end

