-- ==== Sys2Proof/Machine/HostOps.lean ====
section
/-! DEFINITION. The host operations (70_reset_and_hazards.md R96 to R99): Construct, Load, Step, TimerTick,
ReadFrameBuffer, ReadFault and Stop, each atomic and made between steps, over a session that says which of them
are still open. The core's own state is `State`; the phase is the host's. -/

namespace Sys2Proof.Machine

/-! ### What each operation does to the core -/

/-- A countdown timer that stays at 0 (60_exceptions.md R85). -/
def tickDown (t : Byte) : Byte := if t = 0 then 0 else t - 1

/-- TimerTick on the timers chosen: either one may be ticked alone (60_exceptions.md R85). -/
def State.timerTick (s : State) (delay sound : Bool) : State :=
  { s with
    dt := if delay then tickDown s.dt else s.dt
    st := if sound then tickDown s.st else s.st }

/-- Load an image at 0x200; an image of more than 0xE00 bytes is refused, not truncated
(70_reset_and_hazards.md R97). Only the image's own bytes are written (R99's table): on a constructed core the
rest keeps its construction value, and on a core already loaded it keeps what is there (DESIGN CHOICE,
assumption log 13). -/
def State.load (s : State) (img : List Byte) : Option State :=
  if img.length ≤ 0xE00 then some { s with mem := s.mem.writeBytes 0x200 img }
  else none

/-- ReadFrameBuffer: all 64 × 32 pixels (60_exceptions.md R86). -/
def State.readFrameBuffer (s : State) : Vector (Vector Pixel 64) 32 := s.fb

/-- ReadFault: the fault status (70_reset_and_hazards.md R99). -/
def State.readFault (s : State) : Option FaultRecord := s.fault

/-! ### The session -/

/-- Where a session is in its life (70_reset_and_hazards.md R93, R94). -/
inductive Phase where
  /-- constructed, no step taken: a program may be loaded -/
  | constructed
  /-- a step has been taken: no load any more -/
  | running
  /-- the host has stopped: the run is over (70_reset_and_hazards.md R100) -/
  | stopped
  deriving DecidableEq, Repr

/-- A core and the phase of its life. -/
structure Session where
  core : State
  phase : Phase
  deriving DecidableEq, Repr

/-- The host operations (70_reset_and_hazards.md R99). -/
inductive HostOp where
  | construct
  | load (img : List Byte)
  | step
  | timerTick (delay sound : Bool)
  | readFrameBuffer
  | readFault
  | stop
  deriving DecidableEq, Repr

/-- Why an operation is not one the host may make now. -/
inductive HostRefusal where
  /-- Load of more than 0xE00 bytes (70_reset_and_hazards.md R97) -/
  | imageTooLong
  /-- Load after the first step (70_reset_and_hazards.md R97) -/
  | loadAfterFirstStep
  /-- Step of a faulted core (60_exceptions.md R82) -/
  | coreFaulted
  /-- any operation but Construct after Stop (70_reset_and_hazards.md R93: the state "is discarded") -/
  | sessionStopped
  deriving DecidableEq, Repr

/-- What an operation answers. -/
inductive HostAnswer where
  /-- done -/
  | done (s : Session)
  /-- ReadFrameBuffer's answer -/
  | frame (pixels : Vector (Vector Pixel 64) 32) (s : Session)
  /-- ReadFault's answer -/
  | faultStatus (record : Option FaultRecord) (s : Session)
  /-- the operation is not open; the session stays as it was -/
  | notAllowed (why : HostRefusal)
  /-- the step stopped with one of the machine's own reasons -/
  | stepFault (why : Fault)
  /-- the step was refused -/
  | stepRefused (why : Refusal)
  deriving DecidableEq, Repr

/-- A fresh session: a core just constructed (70_reset_and_hazards.md R90, R94). -/
def Session.fresh : Session := ⟨State.reset, .constructed⟩

/-- One host operation on a session (70_reset_and_hazards.md R94, R97, R99). Construct starts over with a new
core at any time (70_reset_and_hazards.md R92). Assumption log 7. R97 does not say what a second, shorter Load
before the first step leaves of the first image. DESIGN CHOICE (assumption log 13, unsafe): the first image's
tail stays. -/
def Session.op (s : Session) : HostOp → HostAnswer
  | .construct => .done Session.fresh
  | .load img =>
    match s.phase with
    | .constructed =>
      match s.core.load img with
      | some c => .done { s with core := c }
      | none => .notAllowed .imageTooLong
    | .running => .notAllowed .loadAfterFirstStep
    | .stopped => .notAllowed .sessionStopped
  | .step =>
    if s.phase = .stopped then .notAllowed .sessionStopped
    else if s.core.fault.isSome then .notAllowed .coreFaulted
    else
      match step s.core with
      | .next c => .done ⟨c, .running⟩
      | .fault r => .stepFault r
      | .refused r => .stepRefused r
  | .timerTick delay sound =>
    if s.phase = .stopped then .notAllowed .sessionStopped
    else .done { s with core := s.core.timerTick delay sound }
  | .readFrameBuffer =>
    if s.phase = .stopped then .notAllowed .sessionStopped else .frame s.core.readFrameBuffer s
  | .readFault =>
    if s.phase = .stopped then .notAllowed .sessionStopped else .faultStatus s.core.readFault s
  | .stop =>
    if s.phase = .stopped then .notAllowed .sessionStopped else .done { s with phase := .stopped }

/-- The session an answer leaves, where it leaves one. -/
def HostAnswer.session? : HostAnswer → Option Session
  | .done s => some s
  | .frame _ s => some s
  | .faultStatus _ s => some s
  | .notAllowed _ => none
  | .stepFault _ => none
  | .stepRefused _ => none

end Sys2Proof.Machine
end

