-- ==== Sys2Proof/Safety.lean ====
section
/-! DEFINITION. The terms claims are stated in: the machine's invariant, what a step needs to raise no fault
(70_reset_and_hazards.md R103), the end of a run (R100), and what an instruction leaves unchanged. -/

namespace Sys2Proof.Safety

open Sys2Proof.Machine

/-! ### The invariant -/

/-- What holds of the machine from construction on. -/
structure Inv (s : State) : Prop where
  /-- memory is in its canonical form -/
  memory : s.mem.wf = true
  /-- sp never leaves 0..15 (10_state.md R21) -/
  spLegal : s.sp.toNat ≤ 15
  /-- no completed step leaves pc above 0x1002 (10_state.md R18) -/
  pcBound : s.pc.toNat ≤ 0x1002
  /-- every stack slot holds 0 or a return address, at most 0x1000 (10_state.md R18, 41_flow.md R56) -/
  slotBound : ∀ j : Fin 16, s.stack[j].toNat ≤ 0x1000
  /-- slot 0 is never written (10_state.md R20) -/
  slotZero : s.stack[0] = 0
  /-- I holds its construction value (10_state.md R17) -/
  indexZero : s.i = 0
  /-- a fault record's pc is the pc of the frozen core (60_exceptions.md R73, R81) -/
  recordPc : ∀ r, s.fault = some r → r.pc = s.pc

/-! ### What a fault record says (60_exceptions.md R73) -/

/-- The record is the one the table of 60_exceptions.md R73 gives for this state: its code's condition holds of
the state before the step, and its word is the word the table names. -/
def RecordFits (s : State) (r : FaultRecord) : Prop :=
  r.pc = s.pc ∧
  match r.code with
  | .misalignedFetch => s.pc.getLsbD 0 = true ∧ r.word = none
  | .fetchOutOfBounds => s.pc.toNat > 0x0FFE ∧ r.word = none
  | .unknownInstruction =>
    ∃ w, fetch s = .ok w ∧ (∀ i, decode w ≠ .ok i) ∧ r.word = some w
  | .stackOverflow =>
    ∃ w nnn, fetch s = .ok w ∧ decode w = .ok (.call nnn) ∧ s.sp = 15 ∧ r.word = some w
  | .stackUnderflow => fetch s = .ok 0x00EE ∧ s.sp = 0 ∧ r.word = some 0x00EE

/-! ### What the fetch sees -/

/-- The fetch raises no fault: pc is even and within 0x000..0xFFE (20_memory.md R33, R34). -/
def Fetchable (s : State) : Prop := s.pc.getLsbD 0 = false ∧ s.pc.toNat ≤ 0x0FFE

/-- The word at pc, the byte at pc the more significant (20_memory.md R32). -/
def wordAtPc (s : State) : Word := s.mem.read s.pc.toNat ++ s.mem.read (s.pc.toNat + 1)

/-! ### When a step raises no fault (70_reset_and_hazards.md R103) -/

/-- What the program must see to before a step (70_reset_and_hazards.md R103 (a), (b), (c)): pc even and within
0x000..0xFFE, a known word there, a CALL only with room on the stack, a RET only with an entry on it. -/
def StepConditions (s : State) : Prop :=
  Fetchable s ∧
  ∃ i, decode (wordAtPc s) = .ok i ∧
    match i with
    | .call _ => s.sp.toNat < 15
    | .ret => 0 < s.sp.toNat
    | _ => True

/-- `n` steps from `s` all end in a next state that records no fault. -/
def SafeFor (n : Nat) (s : State) : Prop :=
  ∃ t, Host.Core.run core n s = .next t ∧ t.fault = none

/-! ### Comparing two runs -/

/-- The same answer, with a change made to the next state. -/
def mapNext (f : State → State) : Result → Result
  | .next t => .next (f t)
  | .fault r => .fault r
  | .refused r => .refused r

/-! ### The end of a run (70_reset_and_hazards.md R100) -/

/-- The next step would change nothing (70_reset_and_hazards.md R100 (b)). -/
def FixedPoint (s : State) : Prop := step s = .next s

/-- The three ways a run ends (70_reset_and_hazards.md R100). -/
inductive RunEnd where
  /-- (a): a fault; never a successful end -/
  | faulted
  /-- (b): a fixed point -/
  | fixedPoint
  /-- (c): the host's Stop of a run that had not ended (assumption log 12) -/
  | stopped
  deriving DecidableEq, Repr

/-- The session is at an end of a run, and at which (70_reset_and_hazards.md R100: "A run ends in exactly one
of three ways"). The rule does not say which way names a run that the host Stops after it faulted or at a fixed
point. DESIGN CHOICE (assumption log 12, unsafe): the end that came before the Stop keeps its name, so
`.stopped` is a Stop of a run that had not ended. -/
def EndsBy (s : Session) : RunEnd → Prop
  | .faulted => s.core.fault ≠ none
  | .fixedPoint => FixedPoint s.core
  | .stopped => s.phase = .stopped ∧ s.core.fault = none ∧ ¬FixedPoint s.core

/-! ### Frames -/

/-- Everything but the registers V and the pc is as it was: every byte of memory, I, the stack, sp, the timers,
the frame buffer and the fault status. -/
structure SameButRegsAndPc (s t : State) : Prop where
  memory : ∀ a, t.mem.read a = s.mem.read a
  index : t.i = s.i
  stack : t.stack = s.stack
  sp : t.sp = s.sp
  delay : t.dt = s.dt
  sound : t.st = s.st
  frame : t.fb = s.fb
  fault : t.fault = s.fault

/-- The instruction completed with Next: pc went up by 2, V[x] holds the result, every other register and
everything else is as it was. -/
structure WroteReg (s t : State) (x : RegNum) (result : Byte) : Prop where
  rest : SameButRegsAndPc s t
  pc : t.pc = s.pc + 2
  dest : t.reg x = result
  others : ∀ r, r ≠ x → t.reg r = s.reg r

/-- The instruction completed with Next and a flag: pc went up by 2, VF holds the flag (written last, so also
when x = 15), V[x] the result when x is not 15, every other register and everything else is as it was. -/
structure WroteRegAndFlag (s t : State) (x : RegNum) (result flag : Byte) : Prop where
  rest : SameButRegsAndPc s t
  pc : t.pc = s.pc + 2
  flag : t.reg vf = flag
  dest : x ≠ vf → t.reg x = result
  others : ∀ r, r ≠ x → r ≠ vf → t.reg r = s.reg r

/-- The instruction only moved pc: every register and everything else is as it was. -/
structure OnlyMovedPc (s t : State) (pc : Addr) : Prop where
  rest : SameButRegsAndPc s t
  pc : t.pc = pc
  regs : ∀ r, t.reg r = s.reg r

end Sys2Proof.Safety
end

