-- ==== Sys2Proof/Certificates/Slice0/Obligations.lean ====
section
/-! DEFINITION. The statements for the provers: rules of the spec, as propositions about the model. -/

open Sys2Proof Sys2Proof.Machine Sys2Proof.Safety

/-- Construction (70_reset_and_hazards.md R90). FONT is the parameter `Config.font`. -/
def Obligations.ResetIsTheConstructionState : Prop :=
  (∀ a, (h : a < 80) → State.reset.mem.read a = Config.font[a]) ∧
  (∀ a, 80 ≤ a → a < 4096 → State.reset.mem.read a = 0) ∧
  (∀ x, State.reset.reg x = 0) ∧ State.reset.i = 0 ∧ State.reset.pc = 0x0200#16 ∧
  (∀ j : Fin 16, State.reset.stack[j] = 0) ∧ State.reset.sp = 0 ∧ State.reset.dt = 0 ∧ State.reset.st = 0 ∧
  (∀ row col, State.reset.pixel row col = 0) ∧ State.reset.fault = none

/-- The invariant of Sys2Proof/Safety.lean holds at construction (10_state.md, section 10). -/
def Obligations.ResetMeetsTheInvariant : Prop :=
  Inv State.reset

/-- Decode and encode agree, on words and on bytes (30_encoding.md R44, R45; 20_memory.md R32). -/
def Obligations.DecodingTheEncodingGivesTheInstruction : Prop :=
  ∀ i : Instr, i.wellFormed = true →
    decode (encode i) = .ok i ∧ ∀ rest, decodeBytes (encodeBytes i ++ rest) = .ok (i, rest)

/-- Each instruction has exactly one word (30_encoding.md R44 to R46; the ignored y is kept). -/
def Obligations.EveryDecodedWordIsTheEncoding : Prop :=
  ∀ (w : Word) (i : Instr), decode w = .ok i → encode i = w

/-- The match and mask columns of 30_encoding.md R44: "A word w matches a row when `w & mask = match`. No two
rows match the same word". -/
def Obligations.DecodeFollowsTheOpcodeTable : Prop :=
  opcodeRows.length = 18 ∧ (∀ i : Instr, i.row ∈ opcodeRows) ∧
  (∀ (w : Word) (i : Instr), decode w = .ok i → w &&& i.row.mask = i.row.value) ∧
  (∀ (w : Word) (r : OpcodeRow), r ∈ opcodeRows → w &&& r.mask = r.value →
    ∃ i, decode w = .ok i ∧ i.row = r) ∧
  (∀ (w : Word) (r r' : OpcodeRow), r ∈ opcodeRows → r' ∈ opcodeRows → w &&& r.mask = r.value →
    w &&& r'.mask = r'.value → r = r')

/-- The four sets of 30_encoding.md R47, a rule the spec marks as resting on its own decision D11 (the counts
are not stated here). -/
def Obligations.UnknownWordsAreTheListedRanges : Prop :=
  ∀ w : Word, decode w = .error (.unknownInstruction w) ↔
    (w.toNat ≤ 0x0FFF ∧ w ≠ 0x00E0 ∧ w ≠ 0x00EE) ∨
    (0x5000 ≤ w.toNat ∧ w.toNat ≤ 0x5FFF ∧ w.toNat % 16 ≠ 0) ∨
    (0x8000 ≤ w.toNat ∧ w.toNat ≤ 0x8FFF ∧ 8 ≤ w.toNat % 16 ∧ w.toNat % 16 ≠ 0xE) ∨
    0x9000 ≤ w.toNat

/-- Words of the test vectors (95_test_vectors.md, section 2). -/
def Obligations.SampleWordsDecode : Prop :=
  decode 0x00E0 = .ok .cls ∧ decode 0x00EE = .ok .ret ∧ decode 0x1ABC = .ok (.jp 0xABC) ∧
  decode 0x2300 = .ok (.call 0x300) ∧ decode 0x3312 = .ok (.seImm 3 0x12) ∧
  decode 0x4300 = .ok (.sneImm 3 0x00) ∧ decode 0x5120 = .ok (.seReg 1 2) ∧
  decode 0x6A42 = .ok (.ldImm 0xA 0x42) ∧ decode 0x7003 = .ok (.addImm 0 0x03) ∧
  decode 0x8F14 = .ok (.addReg 0xF 1) ∧ decode 0x8436 = .ok (.shr 4 3) ∧
  decode 0x810E = .ok (.shl 1 0) ∧ decode 0x0022 = .error (.unknownInstruction 0x0022) ∧
  decode 0x5121 = .error (.unknownInstruction 0x5121) ∧
  decode 0x8128 = .error (.unknownInstruction 0x8128)

/-- 30_encoding.md R46: the 16 words "all decode to SHR with x = 0 and behave identically, and likewise for
8xyE". -/
def Obligations.ShiftWordsIgnoreTheYField : Prop :=
  ∀ w w' : Word, opField w = 8 → opField w' = 8 → xField w = xField w' → nField w = nField w' →
    (nField w = 0x6 ∨ nField w = 0xE) →
    ∃ i i', decode w = .ok i ∧ decode w' = .ok i' ∧ ∀ s, exec i s = exec i' s

/-- 30_encoding.md R50 (the spec's own syntax, its decision D14): "every word of rule R44 has one spelling and
the spelling round-trips". The form of a spelling as data is the model's (assumption log 9). -/
def Obligations.EverySpellingIsTheOneSpelling : Prop :=
  (∀ i : Instr, i.spelling.instr? = some i) ∧
  (∀ (p : Spelling) (i : Instr), p.instr? = some i → p = i.spelling) ∧
  (∀ i j : Instr, i.spelling = j.spelling → i = j)

/-- 20_memory.md R32. -/
def Obligations.FetchReadsABigEndianWord : Prop :=
  ∀ s : State, Fetchable s → ∃ w, fetch s = .ok w ∧
    w.extractLsb' 8 8 = s.mem.read s.pc.toNat ∧ w.extractLsb' 0 8 = s.mem.read (s.pc.toNat + 1) ∧
    w.toNat = 256 * (s.mem.read s.pc.toNat).toNat + (s.mem.read (s.pc.toNat + 1)).toNat

/-- The two checks of 20_memory.md R31, which the spec marks as its decisions D2 and D3 (R33, R34). -/
def Obligations.FetchFaultsOutsideItsRange : Prop :=
  ∀ s : State,
    (fetch s = .error .misalignedFetch ↔ s.pc.toNat % 2 = 1) ∧
    (fetch s = .error .fetchOutOfBounds ↔ s.pc.toNat % 2 = 0 ∧ s.pc.toNat > 0x0FFE) ∧
    (∀ c, fetch s = .error c → c = .misalignedFetch ∨ c = .fetchOutOfBounds)

/-- 20_memory.md R36. -/
def Obligations.StepRunsTheDecodedInstruction : Prop :=
  ∀ (s : State) (i : Instr), s.fault = none → Fetchable s → i.wellFormed = true →
    decodeBytes [s.mem.read s.pc.toNat, s.mem.read (s.pc.toNat + 1)] = .ok (i, []) → step s = exec i s

/-- The fetch of 20_memory.md R31 reads at pc and pc + 1 what was stored there. withFetchWord stands for the
host's Load (assumption log 6). -/
def Obligations.PlacedWordIsTheNextInstruction : Prop :=
  ∀ (s : State) (w : Nat) (i : Instr), s.fault = none → Fetchable s → w < 65536 →
    decodeTableWord 16 w = some i →
    step (s.withFetchWord 16 w) = exec i (s.withFetchWord 16 w) ∧
    ∀ a, a ≠ s.pc.toNat → a ≠ s.pc.toNat + 1 → (s.withFetchWord 16 w).mem.read a = s.mem.read a

/-- The order of 60_exceptions.md R80 (the spec's decision D8), with the records of R73 (D7). That fault entry
is a next state is assumption log 2. -/
def Obligations.StepFaultsInPriorityOrder : Prop :=
  ∀ s : State, s.fault = none →
    (s.pc.toNat % 2 = 1 → step s = .next { s with fault := some ⟨.misalignedFetch, s.pc, none⟩ }) ∧
    (s.pc.toNat % 2 = 0 → s.pc.toNat > 0x0FFE →
      step s = .next { s with fault := some ⟨.fetchOutOfBounds, s.pc, none⟩ }) ∧
    (Fetchable s → (∀ i, decode (wordAtPc s) ≠ .ok i) →
      step s = .next { s with fault := some ⟨.unknownInstruction, s.pc, some (wordAtPc s)⟩ }) ∧
    (∀ nnn, Fetchable s → decode (wordAtPc s) = .ok (.call nnn) → s.sp = 15 →
      step s = .next { s with fault := some ⟨.stackOverflow, s.pc, some (wordAtPc s)⟩ }) ∧
    (Fetchable s → wordAtPc s = 0x00EE → s.sp = 0 →
      step s = .next { s with fault := some ⟨.stackUnderflow, s.pc, some 0x00EE⟩ })

/-- 60_exceptions.md R74, with the record of R73 (the spec's decision D7) and the frozen core of R81 and R82
(D6). That fault entry is a next state and the next step answers halted is assumption log 2. -/
def Obligations.UnknownInstructionNeverAdvances : Prop :=
  ∀ (s : State) (w : Word), s.fault = none → fetch s = .ok w → (∀ i, decode w ≠ .ok i) →
    ∃ t, step s = .next t ∧ t = { s with fault := some ⟨.unknownInstruction, s.pc, some w⟩ } ∧
      t.pc = s.pc ∧ step t = .fault (.halted ⟨.unknownInstruction, s.pc, some w⟩)

/-- The table of 60_exceptions.md R73 (the spec's decision D7), as `RecordFits`. -/
def Obligations.FaultRecordsFitTheirTable : Prop :=
  ∀ (s t : State) (r : FaultRecord), step s = .next t → t.fault = some r → RecordFits s r

/-- 60_exceptions.md R81 (the spec's decision D6). -/
def Obligations.RaisedFaultWritesOnlyTheRecord : Prop :=
  ∀ s t : State, step s = .next t → t.fault ≠ none → s.fault = none ∧ t = { s with fault := t.fault }

/-- 60_exceptions.md R82 (the spec's decision D6): "a model's step returns the fault again, or has no
transition" (assumption log 2). -/
def Obligations.FaultedCoreTakesNoStep : Prop :=
  ∀ (s : State) (r : FaultRecord), s.fault = some r → step s = .fault (.halted r) ∧ ∀ t, step s ≠ .next t

/-- Progress: with sp legal (10_state.md R21, a part of Inv) every step completes or records one of the five
faults. -/
def Obligations.UnfaultedCoreAlwaysSteps : Prop :=
  ∀ s : State, s.fault = none → s.sp.toNat ≤ 15 → ∃ t, step s = .next t

/-- 60_exceptions.md R79. -/
def Obligations.OtherInstructionsAlwaysSucceed : Prop :=
  ∀ (i : Instr) (s : State), i ≠ .ret → (∀ nnn, i ≠ .call nnn) →
    ∃ t, exec i s = .next t ∧ t.fault = s.fault

/-- Parts (a), (b) and (c) of 70_reset_and_hazards.md R103, as `StepConditions`. -/
def Obligations.StepNeedsExactlyTheStepConditions : Prop :=
  ∀ s : State, s.fault = none → s.sp.toNat ≤ 15 →
    ((∃ t, step s = .next t ∧ t.fault = none) ↔ StepConditions s)

/-- The bounds of 10_state.md R17, R18, R20 and R21 (inferences the spec marks as derived or decided), as
`Inv`. -/
def Obligations.StepKeepsTheInvariant : Prop :=
  ∀ s t : State, Inv s → step s = .next t → Inv t

/-- The host operations of 70_reset_and_hazards.md R99 (the session's form is assumption log 7). -/
def Obligations.HostOperationsKeepTheInvariant : Prop :=
  ∀ (σ σ' : Session) (op : HostOp), Inv σ.core → (σ.op op).session? = some σ' → Inv σ'.core

/-- 20_memory.md R39; the second clause is worded with the phases of a session, whose form is assumption log 7
(that a stopped session which never stepped takes no load is that entry's, not the rule's). -/
def Obligations.MemoryIsConstantFromTheFirstStep : Prop :=
  (∀ s t : State, step s = .next t → ∀ a, t.mem.read a = s.mem.read a) ∧
  (∀ (σ σ' : Session) (op : HostOp), op ≠ .construct → ((∃ img, op = .load img) → σ.phase ≠ .constructed) →
    (σ.op op).session? = some σ' → ∀ a, σ'.core.mem.read a = σ.core.mem.read a)

/-- 10_state.md R22. -/
def Obligations.TimersNeverInfluenceAStep : Prop :=
  (∀ (s : State) (d e : Byte),
    step { s with dt := d, st := e } = mapNext (fun t => { t with dt := d, st := e }) (step s)) ∧
  (∀ s t : State, step s = .next t → t.dt = s.dt ∧ t.st = s.st) ∧
  (∀ (σ σ' : Session) (op : HostOp), op ≠ .construct → (∀ d e, op ≠ .timerTick d e) →
    (σ.op op).session? = some σ' → σ'.core.dt = σ.core.dt ∧ σ'.core.st = σ.core.st)

/-- 10_state.md R17, an inference the spec marks as derived from its table. -/
def Obligations.IndexRegisterIsNeverUsed : Prop :=
  ∀ (s : State) (a : Addr), step { s with i := a } = mapNext (fun t => { t with i := a }) (step s)

/-- 10_state.md R23: "The only instruction that writes it is 00E0 CLS ...; no instruction reads it". -/
def Obligations.FrameBufferIsWrittenOnlyByCls : Prop :=
  (∀ s t : State, step s = .next t → t.fb ≠ s.fb →
    Fetchable s ∧ wordAtPc s = 0x00E0 ∧ ∀ row col, t.pixel row col = 0) ∧
  (∀ (s : State) (f g : Vector (Vector Pixel 64) 32),
    mapNext (fun t => { t with fb := g }) (step { s with fb := f }) =
      mapNext (fun t => { t with fb := g }) (step s))

/-- 20_memory.md R35 ("The only memory access is the fetch") and 30_encoding.md R51 ("Skip does not look at
the skipped word"). -/
def Obligations.StepReadsOnlyTheTwoFetchedBytes : Prop :=
  ∀ (s : State) (m : Memory), m.read s.pc.toNat = s.mem.read s.pc.toNat →
    m.read (s.pc.toNat + 1) = s.mem.read (s.pc.toNat + 1) →
    step { s with mem := m } = mapNext (fun t => { t with mem := m }) (step s)

/-- 10_state.md R20, an inference the spec marks as derived. -/
def Obligations.OnlyCallWritesTheStack : Prop :=
  ∀ (s t : State) (j : Fin 16), step s = .next t → t.stack[j] ≠ s.stack[j] →
    (∃ nnn, decode (wordAtPc s) = .ok (.call nnn)) ∧ j.val = s.sp.toNat + 1 ∧ t.stack[j] = s.pc + 2

/-- 10_state.md R15. -/
def Obligations.OnlyFiveInstructionsWriteTheFlag : Prop :=
  (∀ (i : Instr) (s t : State), exec i s = .next t → t.reg vf ≠ s.reg vf →
    ((∃ x y, i = .addReg x y ∨ i = .subReg x y ∨ i = .shr x y ∨ i = .subnReg x y ∨ i = .shl x y) ∧
      (t.reg vf = 0 ∨ t.reg vf = 1)) ∨
    (∃ kk, i = .ldImm vf kk ∨ i = .addImm vf kk) ∨
    (∃ y, i = .ldReg vf y ∨ i = .orReg vf y ∨ i = .andReg vf y ∨ i = .xorReg vf y)) ∧
  (∀ (x y : RegNum) (s t : State),
    exec (.addReg x y) s = .next t ∨ exec (.subReg x y) s = .next t ∨ exec (.shr x y) s = .next t ∨
      exec (.subnReg x y) s = .next t ∨ exec (.shl x y) s = .next t →
    t.reg vf = 0 ∨ t.reg vf = 1)

/-- The action column of 30_encoding.md R44, applied as R51 says. -/
def Obligations.PcFollowsTheActionOfEachInstruction : Prop :=
  ∀ (i : Instr) (s t : State), exec i s = .next t → s.fault = none → t.fault = none →
    match i with
    | .ret => ∃ h : s.sp.toNat < 16, t.pc = s.stack[s.sp.toNat]
    | .jp nnn => t.pc.toNat = nnn.toNat
    | .call nnn => t.pc.toNat = nnn.toNat
    | .seImm x kk => t.pc = if s.reg x = kk then s.pc + 4 else s.pc + 2
    | .sneImm x kk => t.pc = if s.reg x = kk then s.pc + 2 else s.pc + 4
    | .seReg x y => t.pc = if s.reg x = s.reg y then s.pc + 4 else s.pc + 2
    | _ => t.pc = s.pc + 2

/-- Part (b) of 70_reset_and_hazards.md R100 (the spec's decision D16). -/
def Obligations.FixedPointIsTheJumpToItself : Prop :=
  ∀ s : State, FixedPoint s ↔
    s.fault = none ∧ Fetchable s ∧ ∃ nnn, decode (wordAtPc s) = .ok (.jp nnn) ∧ nnn.toNat = s.pc.toNat

/-- Part (b) of 70_reset_and_hazards.md R100 (the spec's decision D16); 41_flow.md R55: "the step leaves the
state unchanged, forever". -/
def Obligations.FixedPointRunsForever : Prop :=
  ∀ (n : Nat) (s : State), FixedPoint s → Host.Core.run core n s = .next s ∧ SafeFor n s

/-- Parts (a) and (c) of 70_reset_and_hazards.md R100, with R92 and 60_exceptions.md R82 (the spec's decisions
D6, D16, D17; the session's form is assumption log 7). -/
def Obligations.EndedSessionsTakeNoStep : Prop :=
  (∀ σ : Session, σ.phase ≠ .stopped → (EndsBy σ .faulted ↔ σ.op .step = .notAllowed .coreFaulted)) ∧
  (∀ (σ : Session) (op : HostOp), σ.phase = .stopped → op ≠ .construct → σ.op op = .notAllowed .sessionStopped) ∧
  (∀ σ : Session, ∃ σ', σ.op .construct = .done σ' ∧ σ'.core = State.reset ∧ σ'.core.fault = none)

/-- 40_display.md R53. -/
def Obligations.ClsClearsEveryPixel : Prop :=
  (∀ w : Word, decode w = .ok .cls ↔ w = 0x00E0#16) ∧
  ∀ s : State, ∃ t, exec .cls s = .next t ∧ (∀ row col, t.pixel row col = 0) ∧ t.pc = s.pc + 2 ∧
    (∀ r, t.reg r = s.reg r) ∧ (∀ a, t.mem.read a = s.mem.read a) ∧ t.i = s.i ∧ t.stack = s.stack ∧
    t.sp = s.sp ∧ t.dt = s.dt ∧ t.st = s.st ∧ t.fault = s.fault ∧
    ((∀ row col, s.pixel row col = 0) → t.fb = s.fb)

/-- 41_flow.md R54 where sp is not 0 (the fault at sp = 0 is the spec's decision D5). -/
def Obligations.RetPopsTheReturnAddress : Prop :=
  ∀ (s : State) (h : s.sp.toNat < 16), 0 < s.sp.toNat →
    ∃ t, exec .ret s = .next t ∧ t.pc = s.stack[s.sp.toNat] ∧ t.sp.toNat = s.sp.toNat - 1 ∧
      (∀ j : Fin 16, t.stack[j] = s.stack[j]) ∧ (∀ r, t.reg r = s.reg r) ∧
      (∀ a, t.mem.read a = s.mem.read a) ∧ t.i = s.i ∧ t.dt = s.dt ∧ t.st = s.st ∧ t.fb = s.fb ∧
      t.fault = s.fault

/-- 41_flow.md R54 and 60_exceptions.md R76, the spec's decision D5; fault entry as a next state is assumption
log 2. -/
def Obligations.RetOnAnEmptyStackUnderflows : Prop :=
  ∀ s : State, s.sp = 0 →
    exec .ret s = .next { s with fault := some ⟨.stackUnderflow, s.pc, some 0x00EE⟩ }

/-- 41_flow.md R55. -/
def Obligations.JpMovesPcToItsAddress : Prop :=
  (∀ (nnn : Addr12) (w : Word), decode w = .ok (.jp nnn) ↔ w = 0x1#4 ++ nnn) ∧
  ∀ (nnn : Addr12) (s : State), ∃ t, exec (.jp nnn) s = .next t ∧ t.pc.toNat = nnn.toNat ∧
    OnlyMovedPc s t t.pc ∧ (nnn.toNat = s.pc.toNat → t = s)

/-- 41_flow.md R56 where sp is below 15 (the fault at sp = 15 is the spec's decision D4). -/
def Obligations.CallPushesTheReturnAddress : Prop :=
  ∀ (nnn : Addr12) (s : State) (h : s.sp.toNat + 1 < 16),
    ∃ t, exec (.call nnn) s = .next t ∧ t.pc.toNat = nnn.toNat ∧ t.sp.toNat = s.sp.toNat + 1 ∧
      t.stack[s.sp.toNat + 1] = s.pc + 2 ∧
      (∀ j : Fin 16, j.val ≠ s.sp.toNat + 1 → t.stack[j] = s.stack[j]) ∧ (∀ r, t.reg r = s.reg r) ∧
      (∀ a, t.mem.read a = s.mem.read a) ∧ t.i = s.i ∧ t.dt = s.dt ∧ t.st = s.st ∧ t.fb = s.fb ∧
      t.fault = s.fault

/-- 41_flow.md R56 and 60_exceptions.md R75, the spec's decision D4; fault entry as a next state is assumption
log 2, the word assumption log 4. -/
def Obligations.CallOnAFullStackOverflows : Prop :=
  ∀ (nnn : Addr12) (s : State), s.sp = 15 →
    ∃ w : Word, w.toNat = 0x2000 + nnn.toNat ∧
      exec (.call nnn) s = .next { s with fault := some ⟨.stackOverflow, s.pc, some w⟩ }

/-- The spec gives no behaviour for sp outside its legal values 0 to 15 (10_state.md R21): the stop is the
model's choice, assumption log 3. -/
def Obligations.IllegalStackPointerStops : Prop :=
  (∀ s : State, s.sp.toNat > 15 → exec .ret s = .fault (.stackPointerOutOfRange s.sp) ∧
    ∀ nnn, exec (.call nnn) s = .fault (.stackPointerOutOfRange s.sp)) ∧
  (∀ (i : Instr) (s : State) (r : Fault), exec i s = .fault r →
    s.sp.toNat > 15 ∧ (i = .ret ∨ ∃ nnn, i = .call nnn) ∧ r = .stackPointerOutOfRange s.sp) ∧
  (∀ (i : Instr) (s : State) (r : Refusal), exec i s ≠ .refused r)

/-- The source's "CALL/RET pair" property (41_flow.md R54, R56; 90_conflicts.md C1). -/
def Obligations.CallThenRetReturnsPastTheCall : Prop :=
  ∀ (nnn : Addr12) (s : State), s.sp.toNat ≤ 14 →
    ∃ t u, exec (.call nnn) s = .next t ∧ exec .ret t = .next u ∧ u.pc = s.pc + 2 ∧ u.sp = s.sp ∧
      (∀ r, u.reg r = s.reg r) ∧ (∀ a, u.mem.read a = s.mem.read a) ∧ u.i = s.i ∧ u.dt = s.dt ∧
      u.st = s.st ∧ u.fb = s.fb ∧ (∀ j : Fin 16, j.val ≠ s.sp.toNat + 1 → u.stack[j] = s.stack[j])

/-- 42_skip.md R57. -/
def Obligations.SeImmSkipsOnEqual : Prop :=
  (∀ (x : RegNum) (kk : Byte) (w : Word), decode w = .ok (.seImm x kk) ↔ w = 0x3#4 ++ x ++ kk) ∧
  ∀ (x : RegNum) (kk : Byte) (s : State), ∃ t, exec (.seImm x kk) s = .next t ∧
    OnlyMovedPc s t (if s.reg x = kk then s.pc + 4 else s.pc + 2)

/-- 42_skip.md R58. -/
def Obligations.SneImmSkipsOnDifferent : Prop :=
  (∀ (x : RegNum) (kk : Byte) (w : Word), decode w = .ok (.sneImm x kk) ↔ w = 0x4#4 ++ x ++ kk) ∧
  ∀ (x : RegNum) (kk : Byte) (s : State), ∃ t, exec (.sneImm x kk) s = .next t ∧
    OnlyMovedPc s t (if s.reg x ≠ kk then s.pc + 4 else s.pc + 2) ∧
    ∃ u, exec (.seImm x kk) s = .next u ∧ (t.pc = s.pc + 4 ↔ ¬u.pc = s.pc + 4)

/-- 42_skip.md R59. -/
def Obligations.SeRegSkipsOnEqual : Prop :=
  (∀ (x y : RegNum) (w : Word), decode w = .ok (.seReg x y) ↔ w = 0x5#4 ++ x ++ y ++ 0x0#4) ∧
  ∀ (x y : RegNum) (s : State), ∃ t, exec (.seReg x y) s = .next t ∧
    OnlyMovedPc s t (if s.reg x = s.reg y then s.pc + 4 else s.pc + 2) ∧ (x = y → t.pc = s.pc + 4)

/-- 43_immediate.md R60. -/
def Obligations.LdImmLoadsTheByte : Prop :=
  (∀ (x : RegNum) (kk : Byte) (w : Word), decode w = .ok (.ldImm x kk) ↔ w = 0x6#4 ++ x ++ kk) ∧
  ∀ (x : RegNum) (kk : Byte) (s : State), ∃ t, exec (.ldImm x kk) s = .next t ∧ WroteReg s t x kk

/-- 43_immediate.md R61. -/
def Obligations.AddImmWrapsWithoutAFlag : Prop :=
  (∀ (x : RegNum) (kk : Byte) (w : Word), decode w = .ok (.addImm x kk) ↔ w = 0x7#4 ++ x ++ kk) ∧
  ∀ (x : RegNum) (kk : Byte) (s : State), ∃ t, exec (.addImm x kk) s = .next t ∧
    (t.reg x).toNat = ((s.reg x).toNat + kk.toNat) % 256 ∧ WroteReg s t x (t.reg x)

/-- 44_alu.md R63. -/
def Obligations.LdRegCopiesTheRegister : Prop :=
  (∀ (x y : RegNum) (w : Word), decode w = .ok (.ldReg x y) ↔ w = 0x8#4 ++ x ++ y ++ 0x0#4) ∧
  ∀ (x y : RegNum) (s : State), ∃ t, exec (.ldReg x y) s = .next t ∧ WroteReg s t x (s.reg y)

/-- 44_alu.md R64, R65 and R66 (that VF is not written is an inference the spec marks as derived). -/
def Obligations.LogicOperationsActBitByBit : Prop :=
  ∀ (x y : RegNum) (s : State),
    (∃ t, exec (.orReg x y) s = .next t ∧ WroteReg s t x (t.reg x) ∧
      ∀ j, (t.reg x).getLsbD j = ((s.reg x).getLsbD j || (s.reg y).getLsbD j)) ∧
    (∃ t, exec (.andReg x y) s = .next t ∧ WroteReg s t x (t.reg x) ∧
      ∀ j, (t.reg x).getLsbD j = ((s.reg x).getLsbD j && (s.reg y).getLsbD j)) ∧
    (∃ t, exec (.xorReg x y) s = .next t ∧ WroteReg s t x (t.reg x) ∧
      ∀ j, (t.reg x).getLsbD j = ((s.reg x).getLsbD j != (s.reg y).getLsbD j))

/-- 44_alu.md R67. -/
def Obligations.AddRegWrapsAndCarries : Prop :=
  (∀ (x y : RegNum) (w : Word), decode w = .ok (.addReg x y) ↔ w = 0x8#4 ++ x ++ y ++ 0x4#4) ∧
  ∀ (x y : RegNum) (s : State), ∃ t, exec (.addReg x y) s = .next t ∧
    WroteRegAndFlag s t x (t.reg x) (if (s.reg x).toNat + (s.reg y).toNat ≥ 256 then 1 else 0) ∧
    (x ≠ vf → (t.reg x).toNat = ((s.reg x).toNat + (s.reg y).toNat) % 256)

/-- 44_alu.md R68 (the polarity of 90_conflicts.md C4). -/
def Obligations.SubRegWrapsAndBorrows : Prop :=
  (∀ (x y : RegNum) (w : Word), decode w = .ok (.subReg x y) ↔ w = 0x8#4 ++ x ++ y ++ 0x5#4) ∧
  ∀ (x y : RegNum) (s : State), ∃ t, exec (.subReg x y) s = .next t ∧
    WroteRegAndFlag s t x (t.reg x) (if (s.reg x).toNat < (s.reg y).toNat then 1 else 0) ∧
    (x ≠ vf → ((t.reg x).toNat : Int) = ((s.reg x).toNat - (s.reg y).toNat : Int) % 256)

/-- 44_alu.md R69. -/
def Obligations.ShrHalvesAndKeepsTheLowBit : Prop :=
  (∀ (x y : RegNum) (w : Word), decode w = .ok (.shr x y) ↔ w = 0x8#4 ++ x ++ y ++ 0x6#4) ∧
  ∀ (x y : RegNum) (s : State), ∃ t, exec (.shr x y) s = .next t ∧
    WroteRegAndFlag s t x (t.reg x) (t.reg vf) ∧ (t.reg vf).toNat = (s.reg x).toNat % 2 ∧
    (x ≠ vf → (t.reg x).toNat = (s.reg x).toNat / 2)

/-- 44_alu.md R70 (the polarity of 90_conflicts.md C4). -/
def Obligations.SubnRegWrapsAndBorrows : Prop :=
  (∀ (x y : RegNum) (w : Word), decode w = .ok (.subnReg x y) ↔ w = 0x8#4 ++ x ++ y ++ 0x7#4) ∧
  ∀ (x y : RegNum) (s : State), ∃ t, exec (.subnReg x y) s = .next t ∧
    WroteRegAndFlag s t x (t.reg x) (if (s.reg y).toNat < (s.reg x).toNat then 1 else 0) ∧
    (x ≠ vf → ((t.reg x).toNat : Int) = ((s.reg y).toNat - (s.reg x).toNat : Int) % 256)

/-- 44_alu.md R71. -/
def Obligations.ShlDoublesAndKeepsTheHighBit : Prop :=
  (∀ (x y : RegNum) (w : Word), decode w = .ok (.shl x y) ↔ w = 0x8#4 ++ x ++ y ++ 0xE#4) ∧
  ∀ (x y : RegNum) (s : State), ∃ t, exec (.shl x y) s = .next t ∧
    WroteRegAndFlag s t x (t.reg x) (t.reg vf) ∧ (t.reg vf).toNat = (s.reg x).toNat / 128 ∧
    (x ≠ vf → (t.reg x).toNat = 2 * (s.reg x).toNat % 256)

/-- The x = y corner cases of 44_alu.md R66, R67, R68 and R70. -/
def Obligations.SameRegisterTwiceNeedsNoSpecialCase : Prop :=
  ∀ (x : RegNum) (s : State), x ≠ vf →
    (∃ t, exec (.subReg x x) s = .next t ∧ t.reg x = 0 ∧ t.reg vf = 0) ∧
    (∃ t, exec (.subnReg x x) s = .next t ∧ t.reg x = 0 ∧ t.reg vf = 0) ∧
    (∃ t, exec (.xorReg x x) s = .next t ∧ t.reg x = 0 ∧ t.reg vf = s.reg vf) ∧
    (∃ t, exec (.addReg x x) s = .next t ∧ (t.reg x).toNat = 2 * (s.reg x).toNat % 256 ∧
      (t.reg vf).toNat = (s.reg x).toNat / 128)

/-- 70_reset_and_hazards.md R97 and R99 (the limit is the spec's decision D13). On a core already loaded, that
the bytes outside the image stay is the model's choice, assumption log 13. -/
def Obligations.LoadPlacesTheImageAndNothingElse : Prop :=
  ∀ (s : State) (img : List Byte),
    (img.length ≤ 0xE00 → ∃ t, s.load img = some t ∧ t = { s with mem := t.mem } ∧
      (∀ k, (h : k < img.length) → t.mem.read (0x200 + k) = img[k]) ∧
      (∀ a, a < 0x200 ∨ 0x200 + img.length ≤ a → t.mem.read a = s.mem.read a)) ∧
    (img.length > 0xE00 → s.load img = none)

/-- 70_reset_and_hazards.md R94 and R97 (the spec's decision D13; the session's form, and what a stopped
session takes, are assumption log 7). An operation that leaves no session leaves the old one as it was. -/
def Obligations.LoadIsRefusedAfterTheFirstStep : Prop :=
  (∀ σ σ' : Session, (σ.op .step).session? = some σ' → σ'.phase = .running) ∧
  (∀ (σ σ' : Session) (op : HostOp), op ≠ .construct → σ.phase ≠ .constructed →
    (σ.op op).session? = some σ' → σ'.phase = σ.phase ∨ op = .stop ∧ σ'.phase = .stopped) ∧
  (∀ (σ : Session) (img : List Byte), σ.phase ≠ .constructed →
    σ.op (.load img) = .notAllowed
      (if σ.phase = .running then .loadAfterFirstStep else .sessionStopped))

/-- 60_exceptions.md R85 (saturation is the spec's decision D12). -/
def Obligations.TimerTickCountsDownToZero : Prop :=
  ∀ (s : State) (d e : Bool),
    (s.timerTick d e).dt.toNat = (if d then s.dt.toNat - 1 else s.dt.toNat) ∧
    (s.timerTick d e).st.toNat = (if e then s.st.toNat - 1 else s.st.toNat) ∧
    { s.timerTick d e with dt := s.dt, st := s.st } = s

/-- 60_exceptions.md R86 and 70_reset_and_hazards.md R99. -/
def Obligations.ReadsChangeNothing : Prop :=
  ∀ σ : Session, σ.phase ≠ .stopped →
    σ.op .readFrameBuffer = .frame σ.core.fb σ ∧ σ.op .readFault = .faultStatus σ.core.fault σ

/-- 70_reset_and_hazards.md R100 (the spec's decision D16): "A run ends in exactly one of three ways". That a
Stop after a fault or at a fixed point does not rename the end is the model's choice, assumption log 12. -/
def Obligations.RunEndsInOneWay : Prop :=
  (∀ (σ : Session) (e e' : RunEnd), EndsBy σ e → EndsBy σ e' → e = e') ∧
  (∀ σ : Session, σ.phase = .stopped → ∃ e, EndsBy σ e)
end

