-- ==== Sys2Proof/Laws/Decode.lean ====
section
/-! SUPPORT. The fields of a packed word, and a word as the packing of its fields: what proofs about decode and
encode rest on. -/

namespace Sys2Proof

/-! ### Fields of a packed word (30_encoding.md R42, 20_memory.md R32) -/

@[simp] theorem opField_packXkk (op : Nibble) (x : RegNum) (kk : Byte) :
    opField (packXkk op x kk) = op := by
  change (op ++ x ++ kk).extractLsb' 12 4 = op
  ext j hj
  simp only [BitVec.getElem_extractLsb', BitVec.getLsbD_append]
  interval_cases j <;> simp

@[simp] theorem xField_packXkk (op : Nibble) (x : RegNum) (kk : Byte) :
    xField (packXkk op x kk) = x := by
  change (op ++ x ++ kk).extractLsb' 8 4 = x
  ext j hj
  simp only [BitVec.getElem_extractLsb', BitVec.getLsbD_append]
  interval_cases j <;> simp

@[simp] theorem kkField_packXkk (op : Nibble) (x : RegNum) (kk : Byte) :
    kkField (packXkk op x kk) = kk := by
  change (op ++ x ++ kk).extractLsb' 0 8 = kk
  ext j hj
  simp only [BitVec.getElem_extractLsb', BitVec.getLsbD_append]
  interval_cases j <;> simp

@[simp] theorem opField_packXyn (op : Nibble) (x y : RegNum) (n : Nibble) :
    opField (packXyn op x y n) = op := by
  change (op ++ x ++ y ++ n).extractLsb' 12 4 = op
  ext j hj
  simp only [BitVec.getElem_extractLsb', BitVec.getLsbD_append]
  interval_cases j <;> simp

@[simp] theorem xField_packXyn (op : Nibble) (x y : RegNum) (n : Nibble) :
    xField (packXyn op x y n) = x := by
  change (op ++ x ++ y ++ n).extractLsb' 8 4 = x
  ext j hj
  simp only [BitVec.getElem_extractLsb', BitVec.getLsbD_append]
  interval_cases j <;> simp

@[simp] theorem yField_packXyn (op : Nibble) (x y : RegNum) (n : Nibble) :
    yField (packXyn op x y n) = y := by
  change (op ++ x ++ y ++ n).extractLsb' 4 4 = y
  ext j hj
  simp only [BitVec.getElem_extractLsb', BitVec.getLsbD_append]
  interval_cases j <;> simp

@[simp] theorem nField_packXyn (op : Nibble) (x y : RegNum) (n : Nibble) :
    nField (packXyn op x y n) = n := by
  change (op ++ x ++ y ++ n).extractLsb' 0 4 = n
  ext j hj
  simp only [BitVec.getElem_extractLsb', BitVec.getLsbD_append]
  interval_cases j <;> simp

@[simp] theorem opField_packNnn (op : Nibble) (nnn : Addr12) :
    opField (packNnn op nnn) = op := by
  change (op ++ nnn).extractLsb' 12 4 = op
  ext j hj
  simp only [BitVec.getElem_extractLsb', BitVec.getLsbD_append]
  interval_cases j <;> simp

@[simp] theorem nnnField_packNnn (op : Nibble) (nnn : Addr12) :
    nnnField (packNnn op nnn) = nnn := by
  change (op ++ nnn).extractLsb' 0 12 = nnn
  ext j hj
  simp only [BitVec.getElem_extractLsb', BitVec.getLsbD_append]
  interval_cases j <;> simp

@[simp] theorem highByte_wordOfBytes (hi lo : Byte) :
    highByte (wordOfBytes hi lo) = hi := by
  change (hi ++ lo).extractLsb' 8 8 = hi
  ext j hj
  simp only [BitVec.getElem_extractLsb', BitVec.getLsbD_append]
  interval_cases j <;> simp

@[simp] theorem lowByte_wordOfBytes (hi lo : Byte) :
    lowByte (wordOfBytes hi lo) = lo := by
  change (hi ++ lo).extractLsb' 0 8 = lo
  ext j hj
  simp only [BitVec.getElem_extractLsb', BitVec.getLsbD_append]
  interval_cases j <;> simp

/-! ### A word as the packing of its fields -/

theorem packXkk_fields (w : Word) :
    packXkk (opField w) (xField w) (kkField w) = w := by
  apply BitVec.eq_of_getLsbD_eq
  intro j hj
  change (w.extractLsb' 12 4 ++ w.extractLsb' 8 4 ++ w.extractLsb' 0 8).getLsbD j = w.getLsbD j
  simp only [BitVec.getLsbD_append, BitVec.getLsbD_extractLsb']
  interval_cases j <;> simp

theorem packXyn_fields (w : Word) :
    packXyn (opField w) (xField w) (yField w) (nField w) = w := by
  apply BitVec.eq_of_getLsbD_eq
  intro j hj
  change (w.extractLsb' 12 4 ++ w.extractLsb' 8 4 ++ w.extractLsb' 4 4 ++ w.extractLsb' 0 4).getLsbD j = w.getLsbD j
  simp only [BitVec.getLsbD_append, BitVec.getLsbD_extractLsb']
  interval_cases j <;> simp

theorem packNnn_fields (w : Word) :
    packNnn (opField w) (nnnField w) = w := by
  apply BitVec.eq_of_getLsbD_eq
  intro j hj
  change (w.extractLsb' 12 4 ++ w.extractLsb' 0 12).getLsbD j = w.getLsbD j
  simp only [BitVec.getLsbD_append, BitVec.getLsbD_extractLsb']
  interval_cases j <;> simp

@[simp] theorem wordOfBytes_bytes (w : Word) :
    wordOfBytes (highByte w) (lowByte w) = w := by
  apply BitVec.eq_of_getLsbD_eq
  intro j hj
  change (w.extractLsb' 8 8 ++ w.extractLsb' 0 8).getLsbD j = w.getLsbD j
  simp only [BitVec.getLsbD_append, BitVec.getLsbD_extractLsb']
  interval_cases j <;> simp

/-- A word whose op field is not 0 is neither CLS nor RET. -/
theorem ne_of_opField {w : Word} (h : opField w ≠ 0) : w ≠ 0x00E0 ∧ w ≠ 0x00EE :=
  ⟨by rintro rfl; exact h (by decide), by rintro rfl; exact h (by decide)⟩

/-- Decode of a word outside group 0, where only the op and n fields decide (30_encoding.md R45). -/
theorem decode_of_opField {w : Word} (h : opField w ≠ 0) :
    decode w =
      if opField w = 0x1 then .ok (.jp (nnnField w))
      else if opField w = 0x2 then .ok (.call (nnnField w))
      else if opField w = 0x3 then .ok (.seImm (xField w) (kkField w))
      else if opField w = 0x4 then .ok (.sneImm (xField w) (kkField w))
      else if opField w = 0x5 ∧ nField w = 0x0 then .ok (.seReg (xField w) (yField w))
      else if opField w = 0x6 then .ok (.ldImm (xField w) (kkField w))
      else if opField w = 0x7 then .ok (.addImm (xField w) (kkField w))
      else if opField w = 0x8 then decodeAlu w
      else .error (.unknownInstruction w) := by
  rw [decode, if_neg (ne_of_opField h).1, if_neg (ne_of_opField h).2]

/-- The bytes of a word decode as the word does, nothing left over. -/
theorem decodeBytes_bytesOfWord (w : Word) (rest : List Byte) :
    decodeBytes (bytesOfWord w ++ rest) = (decode w).map (fun i => (i, rest)) := by
  simp only [bytesOfWord, List.cons_append, List.nil_append, decodeBytes, wordOfBytes_bytes]
  cases decode w <;> rfl

end Sys2Proof
end

