-- ==== Sys2Proof/Laws/Flags.lean ====
section
/-! SUPPORT. One lemma per ALU function, flag and operand form, in terms of the operands' unsigned values. -/

namespace Sys2Proof.Machine

/-! ### Operand forms (regOperand, immOperand and returnAddress are abbreviations) -/

/-- A jump target is its operand, zero-extended. -/
@[simp] theorem jumpTarget_toNat (nnn : Addr12) : (jumpTarget nnn).toNat = nnn.toNat := by
  have := nnn.isLt
  simp only [jumpTarget, BitVec.toNat_setWidth]
  omega

/-! ### Flags -/

/-- A flag is 0 or 1. -/
theorem flagOf_cases (b : Bool) : flagOf b = 0 ∨ flagOf b = 1 := by cases b <;> simp [flagOf]

theorem carryFlag_eq (a b : Byte) : carryFlag a b = if a.toNat + b.toNat ≥ 256 then 1 else 0 := by
  by_cases h : a.toNat + b.toNat ≥ 256 <;> simp [carryFlag, flagOf, h]

theorem borrowFlag_eq (a b : Byte) : borrowFlag a b = if a.toNat < b.toNat then 1 else 0 := by
  by_cases h : a.toNat < b.toNat <;> simp [borrowFlag, flagOf, h]

theorem lowBitFlag_toNat (a : Byte) : (lowBitFlag a).toNat = a.toNat % 2 := by
  simp only [lowBitFlag, flagOf, ← BitVec.testBit_toNat, Nat.testBit_zero]
  rcases Nat.mod_two_eq_zero_or_one a.toNat with h | h <;> simp [h]

theorem highBitFlag_toNat (a : Byte) : (highBitFlag a).toNat = a.toNat / 128 := by
  have := a.isLt
  simp only [highBitFlag, flagOf, ← BitVec.testBit_toNat, Nat.testBit_eq_decide_div_mod_eq]
  by_cases h : a.toNat / 128 = 0
  · simp [h]
  · have h1 : a.toNat / 128 = 1 := by omega
    simp [h1]

/-! ### Results -/

theorem aluAdd_toNat (a b : Byte) : (aluAdd a b).toNat = (a.toNat + b.toNat) % 256 := by
  simp [aluAdd]

theorem aluSub_toNat (a b : Byte) : (aluSub a b).toNat = (a.toNat + 256 - b.toNat) % 256 := by
  simp [aluSub]

theorem aluShr_toNat (a : Byte) : (aluShr a).toNat = a.toNat / 2 := by
  simp [aluShr, Nat.shiftRight_eq_div_pow]

theorem aluShl_toNat (a : Byte) : (aluShl a).toNat = 2 * a.toNat % 256 := by
  simp [aluShl, Nat.shiftLeft_eq, Nat.mul_comm]

end Sys2Proof.Machine
end

