-- ==== Sys2Proof/Laws/Host.lean ====
section
/-! SUPPORT. Everything a host operation that leaves a session can have done, said once. -/

namespace Sys2Proof.Machine

/-- A load that is accepted (70_reset_and_hazards.md R97). -/
theorem State.load_eq_some {s t : State} {img : List Byte} (h : s.load img = some t) :
    img.length ≤ 0xE00 ∧ t = { s with mem := s.mem.writeBytes 0x200 img } := by
  unfold State.load at h
  split at h
  · next hl => cases h; exact ⟨hl, rfl⟩
  · cases h

variable {σ σ' : Session} {op : HostOp}

/-- A host operation that leaves a session is one of these, open in its phase, and leaves just this
(70_reset_and_hazards.md R99; assumption log 7). -/
theorem Session.op_leaves_cases (h : (σ.op op).session? = some σ') :
    (op = .construct ∧ σ' = Session.fresh) ∨
    (∃ img c, op = .load img ∧ σ.phase = .constructed ∧ σ.core.load img = some c ∧
      σ' = { σ with core := c }) ∨
    (∃ c, op = .step ∧ σ.phase ≠ .stopped ∧ σ.core.fault = none ∧ step σ.core = .next c ∧
      σ' = ⟨c, .running⟩) ∨
    (∃ d e, op = .timerTick d e ∧ σ.phase ≠ .stopped ∧ σ' = { σ with core := σ.core.timerTick d e }) ∨
    ((op = .readFrameBuffer ∨ op = .readFault) ∧ σ.phase ≠ .stopped ∧ σ' = σ) ∨
    (op = .stop ∧ σ.phase ≠ .stopped ∧ σ' = { σ with phase := .stopped }) := by
  cases op with
  | construct => cases h; exact .inl ⟨rfl, rfl⟩
  | load img =>
    simp only [Session.op] at h
    split at h
    · next hp =>
      split at h
      · next c hc => cases h; exact .inr (.inl ⟨img, c, rfl, hp, hc, rfl⟩)
      · cases h
    · cases h
    · cases h
  | step =>
    simp only [Session.op] at h
    split at h
    · cases h
    next hp =>
    split at h
    · cases h
    next hf =>
    split at h
    · next c hc =>
      cases h
      exact .inr (.inr (.inl ⟨c, rfl, hp, Option.not_isSome_iff_eq_none.1 hf, hc, rfl⟩))
    · cases h
    · cases h
  | timerTick d e =>
    simp only [Session.op] at h
    split at h
    · cases h
    · next hp => cases h; exact .inr (.inr (.inr (.inl ⟨d, e, rfl, hp, rfl⟩)))
  | readFrameBuffer =>
    simp only [Session.op] at h
    split at h
    · cases h
    · next hp => cases h; exact .inr (.inr (.inr (.inr (.inl ⟨.inl rfl, hp, rfl⟩))))
  | readFault =>
    simp only [Session.op] at h
    split at h
    · cases h
    · next hp => cases h; exact .inr (.inr (.inr (.inr (.inl ⟨.inr rfl, hp, rfl⟩))))
  | stop =>
    simp only [Session.op] at h
    split at h
    · cases h
    · next hp => cases h; exact .inr (.inr (.inr (.inr (.inr ⟨rfl, hp, rfl⟩))))

end Sys2Proof.Machine
end

