-- ==== Sys2Proof/Laws/Memory.lean ====
section
/-! SUPPORT. Memory: read after write, the canonical form kept by every operation, and equal bytes make equal
memories. -/

namespace Sys2Proof.Machine

/-- The canonical form of a memory with a pair in front, as facts. -/
theorem Memory.wf_cons {a : Nat} {b : Byte} {m : Memory} :
    Memory.wf ((a, b) :: m) = true ↔
      a < 4096 ∧ b ≠ Memory.unlisted a ∧ (∀ c ∈ m, a < c.1) ∧ m.wf = true := by
  simp [Memory.wf, and_assoc]

theorem Memory.lookup_none_of_above {m : Memory} {a : Nat} (h : ∀ c ∈ m, a < c.1) :
    m.lookup a = none := by
  induction m with
  | nil => rfl
  | cons c m ih =>
    have hc := h c (by simp)
    simp only [Memory.lookup]
    rw [if_neg (by omega)]
    exact ih fun d hd => h d (by simp [hd])

/-! ### insert -/

theorem Memory.lookup_insert (m : Memory) (a a' : Nat) (b : Byte) :
    (Memory.insert a b m).lookup a' = if a' = a then some b else m.lookup a' := by
  induction m with
  | nil => simp [Memory.insert, Memory.lookup]
  | cons c m ih =>
    simp only [Memory.insert]
    split
    · simp only [Memory.lookup]
    · split
      · next h => subst h; simp only [Memory.lookup]; split <;> rfl
      · next h =>
        simp only [Memory.lookup, ih]
        by_cases h1 : a' = c.1
        · have h2 : c.1 ≠ a := fun e => h e.symm
          simp [h1, h2]
        · simp [h1]

theorem Memory.mem_insert {m : Memory} {a : Nat} {b : Byte} {c : Host.Cell}
    (h : c ∈ Memory.insert a b m) : c = (a, b) ∨ c ∈ m := by
  induction m with
  | nil => simpa [Memory.insert] using h
  | cons d m ih =>
    simp only [Memory.insert] at h
    split at h
    · simpa using h
    · split at h
      · rcases List.mem_cons.1 h with h | h
        · exact .inl h
        · exact .inr (by simp [h])
      · rcases List.mem_cons.1 h with h | h
        · exact .inr (by simp [h])
        · rcases ih h with h | h
          · exact .inl h
          · exact .inr (by simp [h])

theorem Memory.wf_insert {m : Memory} {a : Nat} {b : Byte} (ha : a < 4096)
    (hb : b ≠ Memory.unlisted a) (h : m.wf = true) : (Memory.insert a b m).wf = true := by
  induction m with
  | nil => simp [Memory.insert, ha, hb, Memory.wf]
  | cons c m ih =>
    obtain ⟨h1, h2, h3, h4⟩ := Memory.wf_cons.1 h
    simp only [Memory.insert]
    split
    · next hlt =>
      refine Memory.wf_cons.2 ⟨ha, hb, ?_, h⟩
      intro d hd
      rcases List.mem_cons.1 hd with rfl | hd
      · exact hlt
      · have := h3 d hd; omega
    · split
      · next heq => subst heq; exact Memory.wf_cons.2 ⟨ha, hb, h3, h4⟩
      · refine Memory.wf_cons.2 ⟨h1, h2, ?_, ih h4⟩
        intro d hd
        rcases Memory.mem_insert hd with rfl | hd
        · change c.1 < a; omega
        · exact h3 d hd

/-! ### erase -/

theorem Memory.lookup_erase (m : Memory) (a a' : Nat) :
    (Memory.erase a m).lookup a' = if a' = a then none else m.lookup a' := by
  induction m with
  | nil => simp [Memory.erase, Memory.lookup]
  | cons c m ih =>
    simp only [Memory.erase]
    split
    · next h =>
      subst h
      rw [ih]
      simp only [Memory.lookup]
      split <;> rfl
    · next h =>
      simp only [Memory.lookup, ih]
      by_cases h1 : a' = c.1
      · have h2 : c.1 ≠ a := fun e => h e.symm
        simp [h1, h2]
      · simp [h1]

theorem Memory.mem_erase {m : Memory} {a : Nat} {c : Host.Cell} (h : c ∈ Memory.erase a m) : c ∈ m := by
  induction m with
  | nil => simp [Memory.erase] at h
  | cons d m ih =>
    simp only [Memory.erase] at h
    split at h
    · exact List.mem_cons_of_mem _ (ih h)
    · rcases List.mem_cons.1 h with h | h
      · simp [h]
      · exact List.mem_cons_of_mem _ (ih h)

theorem Memory.wf_erase {m : Memory} {a : Nat} (h : m.wf = true) : (Memory.erase a m).wf = true := by
  induction m with
  | nil => exact h
  | cons c m ih =>
    obtain ⟨h1, h2, h3, h4⟩ := Memory.wf_cons.1 h
    simp only [Memory.erase]
    split
    · exact ih h4
    · exact Memory.wf_cons.2 ⟨h1, h2, fun d hd => h3 d (Memory.mem_erase hd), ih h4⟩

/-! ### write -/

/-- What an address reads as after a write of a byte. -/
theorem Memory.read_write (m : Memory) (a a' : Nat) (b : Byte) :
    (m.write a b).read a' = if a' = a ∧ a < 4096 then b else m.read a' := by
  unfold Memory.write
  split
  · next ha =>
    split
    · next hb =>
      simp only [Memory.read, Memory.lookup_erase]
      by_cases h : a' = a <;> simp [h, ha, hb]
    · simp only [Memory.read, Memory.lookup_insert]
      by_cases h : a' = a <;> simp [h, ha]
  · next ha => simp [ha]

theorem Memory.read_write_same (m : Memory) {a : Nat} (b : Byte) (ha : a < 4096) :
    (m.write a b).read a = b := by simp [Memory.read_write, ha]

theorem Memory.read_write_other (m : Memory) {a a' : Nat} (b : Byte) (h : a' ≠ a) :
    (m.write a b).read a' = m.read a' := by simp [Memory.read_write, h]

/-- A write keeps the canonical form. -/
theorem Memory.wf_write {m : Memory} (a : Nat) (b : Byte) (h : m.wf = true) :
    (m.write a b).wf = true := by
  unfold Memory.write
  split
  · next ha =>
    split
    · exact Memory.wf_erase h
    · next hb => exact Memory.wf_insert ha hb h
  · exact h

/-! ### writeBytes -/

/-- What an address reads as after bytes are written at rising addresses. -/
theorem Memory.read_writeBytes (m : Memory) (a : Nat) (bs : List Byte) (a' : Nat) :
    (m.writeBytes a bs).read a' =
      if h : a ≤ a' ∧ a' - a < bs.length ∧ a' < 4096 then bs[a' - a] else m.read a' := by
  induction bs generalizing a with
  | nil => simp [Memory.writeBytes]
  | cons b bs ih =>
    simp only [Memory.writeBytes, Memory.read_write, ih]
    by_cases h1 : a' = a
    · subst h1
      by_cases h2 : a' < 4096
      · simp [h2]
      · simp [h2]
    · simp only [h1, false_and, if_false]
      by_cases h2 : a + 1 ≤ a' ∧ a' - (a + 1) < bs.length ∧ a' < 4096
      · have h3 : a ≤ a' ∧ a' - a < (b :: bs).length ∧ a' < 4096 := by
          simp only [List.length_cons]; omega
        rw [dif_pos h2, dif_pos h3]
        have h4 : a' - a = (a' - (a + 1)) + 1 := by omega
        simp [h4]
      · have h3 : ¬(a ≤ a' ∧ a' - a < (b :: bs).length ∧ a' < 4096) := by
          simp only [List.length_cons]; omega
        rw [dif_neg h2, dif_neg h3]

/-- Writing bytes keeps the canonical form. -/
theorem Memory.wf_writeBytes {m : Memory} (a : Nat) (bs : List Byte) (h : m.wf = true) :
    (m.writeBytes a bs).wf = true := by
  induction bs generalizing a with
  | nil => exact h
  | cons b bs ih => exact Memory.wf_write a b (ih (a + 1))

/-! ### equal bytes, equal data -/

theorem Memory.lookup_eq_some_of_mem {m : Memory} (h : m.wf = true) {a : Nat} {b : Byte}
    (hm : (a, b) ∈ m) : m.lookup a = some b := by
  induction m with
  | nil => cases hm
  | cons c m ih =>
    obtain ⟨-, -, h3, h4⟩ := Memory.wf_cons.1 h
    simp only [Memory.lookup]
    rcases List.mem_cons.1 hm with hm | hm
    · subst hm; simp
    · have := h3 _ hm
      rw [if_neg (by simp at this; omega)]
      exact ih h4 hm

theorem Memory.read_ne_unlisted_of_mem {m : Memory} (h : m.wf = true) {c : Host.Cell} (hm : c ∈ m) :
    m.read c.1 ≠ Memory.unlisted c.1 := by
  have hl := Memory.lookup_eq_some_of_mem h (a := c.1) (b := c.2) hm
  simp only [Memory.read, hl, Option.getD_some]
  clear hl
  induction m with
  | nil => cases hm
  | cons d m ih =>
    obtain ⟨-, h2, -, h4⟩ := Memory.wf_cons.1 h
    rcases List.mem_cons.1 hm with rfl | hm
    · exact h2
    · exact ih h4 hm

theorem Memory.read_unlisted_of_above {m : Memory} {a : Nat} (h : ∀ c ∈ m, a < c.1) :
    m.read a = Memory.unlisted a := by
  simp [Memory.read, Memory.lookup_none_of_above h]

/-- Two canonical memories that read the same everywhere are the same list. -/
theorem Memory.ext_read {m m' : Memory} (h : m.wf = true) (h' : m'.wf = true)
    (hr : ∀ a, m.read a = m'.read a) : m = m' := by
  induction m generalizing m' with
  | nil =>
    cases m' with
    | nil => rfl
    | cons c m' =>
      exact absurd (hr c.1).symm (Memory.read_ne_unlisted_of_mem h' (by simp))
  | cons c m ih =>
    cases m' with
    | nil => exact absurd (hr c.1) (Memory.read_ne_unlisted_of_mem h (by simp))
    | cons d m' =>
      obtain ⟨-, -, h3, h4⟩ := Memory.wf_cons.1 h
      obtain ⟨-, -, h3', h4'⟩ := Memory.wf_cons.1 h'
      have hne := Memory.read_ne_unlisted_of_mem h (c := c) (by simp)
      have hne' := Memory.read_ne_unlisted_of_mem h' (c := d) (by simp)
      have hcd : c.1 = d.1 := by
        rcases Nat.lt_trichotomy c.1 d.1 with hlt | heq | hgt
        · refine absurd (hr c.1 ▸ Memory.read_unlisted_of_above ?_) hne
          intro e he
          rcases List.mem_cons.1 he with rfl | he
          · exact hlt
          · have := h3' e he; omega
        · exact heq
        · refine absurd ((hr d.1).symm ▸ Memory.read_unlisted_of_above ?_) hne'
          intro e he
          rcases List.mem_cons.1 he with rfl | he
          · exact hgt
          · have := h3 e he; omega
      obtain ⟨ca, cb⟩ := c
      obtain ⟨da, db⟩ := d
      simp only at hcd
      subst hcd
      have hb : cb = db := by simpa [Memory.read, Memory.lookup] using hr ca
      subst hb
      congr 1
      refine ih h4 h4' fun a => ?_
      by_cases ha : a = ca
      · subst ha
        rw [Memory.read_unlisted_of_above h3, Memory.read_unlisted_of_above h3']
      · simpa [Memory.read, Memory.lookup, ha] using hr a

end Sys2Proof.Machine
end

