-- ==== Sys2Proof/Laws/Syntax.lean ====
section
/-! SUPPORT. The fields of `Instr` have the widths of the word's fields, so every instruction is well formed. -/

namespace Sys2Proof

/-! ### Each operand is below its bound (30_encoding.md R43) -/

theorem regNum_lt (x : RegNum) : x.toNat < 16 := x.isLt
theorem byte_lt (k : Byte) : k.toNat < 256 := k.isLt
theorem addr12_lt (a : Addr12) : a.toNat < 4096 := a.isLt

/-! ### The operands of a shift (30_encoding.md R50) -/

theorem shiftOperands_zero (x : RegNum) : shiftOperands x 0#4 = [.reg x.toNat] := rfl

theorem shiftOperands_ne {x y : RegNum} (h : y ≠ 0#4) : shiftOperands x y = [.reg x.toNat, .reg y.toNat] := by
  simp [shiftOperands, h]

theorem regNum_toNat_ne_zero {y : RegNum} (h : y ≠ 0#4) : y.toNat ≠ 0 :=
  fun e => h (BitVec.eq_of_toNat_eq e)

/-- Every instruction's spelling is well formed (30_encoding.md R43, R50). -/
theorem instr_wellFormed (i : Instr) : i.wellFormed = true := by
  cases i with
  | shr x y | shl x y =>
    by_cases h : y = 0#4
    · subst h
      simp [Instr.wellFormed, Instr.spelling, shiftOperands_zero, Spelling.wellFormed, Spelling.shapeKnown,
        AsmOperand.wellFormed, regNum_lt]
    · simp [Instr.wellFormed, Instr.spelling, shiftOperands_ne h, Spelling.wellFormed, Spelling.shapeKnown,
        AsmOperand.wellFormed, regNum_lt, regNum_toNat_ne_zero h]
  | _ =>
    simp [Instr.wellFormed, Instr.spelling, Spelling.wellFormed, Spelling.shapeKnown, AsmOperand.wellFormed,
      regNum_lt, byte_lt, addr12_lt]

end Sys2Proof
end

