-- ==== Sys2Proof/Laws/PerInstr.lean ====
section
/-! SUPPORT. Statements about every instruction as syntax, one lemma per constructor: the word an instruction is
encoded as matches its row of the opcode table (30_encoding.md R44), and its spelling stands for it
(30_encoding.md R50). -/

namespace Sys2Proof.Laws.TableRow

/-- The instruction's word matches the instruction's row: `w & mask = match` (30_encoding.md R44). -/
def Statement (i : Instr) : Prop := i.row.accepts (encode i) = true

/-- A word whose op field is `op` matches a row that fixes the op field only. -/
theorem accepts_op {m : String} {w : Word} {op : Nibble} (h : opField w = op) :
    OpcodeRow.accepts ⟨m, 0xF000, op ++ (0 : Addr12)⟩ w = true := by
  subst h
  simp only [OpcodeRow.accepts, beq_iff_eq]
  apply BitVec.eq_of_getLsbD_eq
  intro j hj
  change (w &&& 0xF000#16).getLsbD j = (w.extractLsb' 12 4 ++ (0 : Addr12)).getLsbD j
  simp only [BitVec.getLsbD_and, BitVec.getLsbD_append, BitVec.getLsbD_extractLsb']
  interval_cases j <;> simp

/-- A word whose op and n fields are `op` and `n` matches a row that fixes these two. -/
theorem accepts_op_n {m : String} {w : Word} {op n : Nibble} (h : opField w = op) (h' : nField w = n) :
    OpcodeRow.accepts ⟨m, 0xF00F, op ++ (0 : Byte) ++ n⟩ w = true := by
  subst h h'
  simp only [OpcodeRow.accepts, beq_iff_eq]
  apply BitVec.eq_of_getLsbD_eq
  intro j hj
  change (w &&& 0xF00F#16).getLsbD j = (w.extractLsb' 12 4 ++ (0 : Byte) ++ w.extractLsb' 0 4).getLsbD j
  simp only [BitVec.getLsbD_and, BitVec.getLsbD_append, BitVec.getLsbD_extractLsb']
  interval_cases j <;> simp

theorem cls : Statement (.cls) :=
  (by decide : OpcodeRow.accepts (Instr.row .cls) (encode .cls) = true)
theorem ret : Statement (.ret) :=
  (by decide : OpcodeRow.accepts (Instr.row .ret) (encode .ret) = true)
theorem jp (nnn : Addr12) : Statement (.jp nnn) :=
  accepts_op (opField_packNnn _ nnn)
theorem call (nnn : Addr12) : Statement (.call nnn) :=
  accepts_op (opField_packNnn _ nnn)
theorem seImm (x : RegNum) (kk : Byte) : Statement (.seImm x kk) :=
  accepts_op (opField_packXkk _ x kk)
theorem sneImm (x : RegNum) (kk : Byte) : Statement (.sneImm x kk) :=
  accepts_op (opField_packXkk _ x kk)
theorem seReg (x y : RegNum) : Statement (.seReg x y) :=
  accepts_op_n (opField_packXyn _ x y _) (nField_packXyn _ x y _)
theorem ldImm (x : RegNum) (kk : Byte) : Statement (.ldImm x kk) :=
  accepts_op (opField_packXkk _ x kk)
theorem addImm (x : RegNum) (kk : Byte) : Statement (.addImm x kk) :=
  accepts_op (opField_packXkk _ x kk)
theorem ldReg (x y : RegNum) : Statement (.ldReg x y) :=
  accepts_op_n (opField_packXyn _ x y _) (nField_packXyn _ x y _)
theorem orReg (x y : RegNum) : Statement (.orReg x y) :=
  accepts_op_n (opField_packXyn _ x y _) (nField_packXyn _ x y _)
theorem andReg (x y : RegNum) : Statement (.andReg x y) :=
  accepts_op_n (opField_packXyn _ x y _) (nField_packXyn _ x y _)
theorem xorReg (x y : RegNum) : Statement (.xorReg x y) :=
  accepts_op_n (opField_packXyn _ x y _) (nField_packXyn _ x y _)
theorem addReg (x y : RegNum) : Statement (.addReg x y) :=
  accepts_op_n (opField_packXyn _ x y _) (nField_packXyn _ x y _)
theorem subReg (x y : RegNum) : Statement (.subReg x y) :=
  accepts_op_n (opField_packXyn _ x y _) (nField_packXyn _ x y _)
theorem shr (x y : RegNum) : Statement (.shr x y) :=
  accepts_op_n (opField_packXyn _ x y _) (nField_packXyn _ x y _)
theorem subnReg (x y : RegNum) : Statement (.subnReg x y) :=
  accepts_op_n (opField_packXyn _ x y _) (nField_packXyn _ x y _)
theorem shl (x y : RegNum) : Statement (.shl x y) :=
  accepts_op_n (opField_packXyn _ x y _) (nField_packXyn _ x y _)

end Sys2Proof.Laws.TableRow

namespace Sys2Proof.Laws.Spelling

/-- The instruction's spelling stands for the instruction (30_encoding.md R50: "the spelling round-trips"). -/
def Statement (i : Instr) : Prop := i.spelling.instr? = some i

/-- A well-formed spelling is read by its shape. -/
theorem wellFormed_spelling (i : Instr) : i.spelling.wellFormed = true := instr_wellFormed i

theorem cls : Statement (.cls) := by
  have h := wellFormed_spelling (.cls)
  simp only [Instr.spelling] at h
  simp [Statement, Instr.spelling, Sys2Proof.Spelling.instr?, h]
theorem ret : Statement (.ret) := by
  have h := wellFormed_spelling (.ret)
  simp only [Instr.spelling] at h
  simp [Statement, Instr.spelling, Sys2Proof.Spelling.instr?, h]
theorem jp (nnn : Addr12) : Statement (.jp nnn) := by
  have h := wellFormed_spelling (.jp nnn)
  simp only [Instr.spelling] at h
  simp [Statement, Instr.spelling, Sys2Proof.Spelling.instr?, h]
theorem call (nnn : Addr12) : Statement (.call nnn) := by
  have h := wellFormed_spelling (.call nnn)
  simp only [Instr.spelling] at h
  simp [Statement, Instr.spelling, Sys2Proof.Spelling.instr?, h]
theorem seImm (x : RegNum) (kk : Byte) : Statement (.seImm x kk) := by
  have h := wellFormed_spelling (.seImm x kk)
  simp only [Instr.spelling] at h
  simp [Statement, Instr.spelling, Sys2Proof.Spelling.instr?, h, regByteInstr]
theorem sneImm (x : RegNum) (kk : Byte) : Statement (.sneImm x kk) := by
  have h := wellFormed_spelling (.sneImm x kk)
  simp only [Instr.spelling] at h
  simp [Statement, Instr.spelling, Sys2Proof.Spelling.instr?, h, regByteInstr]
theorem seReg (x y : RegNum) : Statement (.seReg x y) := by
  have h := wellFormed_spelling (.seReg x y)
  simp only [Instr.spelling] at h
  simp [Statement, Instr.spelling, Sys2Proof.Spelling.instr?, h, regRegInstr]
theorem ldImm (x : RegNum) (kk : Byte) : Statement (.ldImm x kk) := by
  have h := wellFormed_spelling (.ldImm x kk)
  simp only [Instr.spelling] at h
  simp [Statement, Instr.spelling, Sys2Proof.Spelling.instr?, h, regByteInstr]
theorem addImm (x : RegNum) (kk : Byte) : Statement (.addImm x kk) := by
  have h := wellFormed_spelling (.addImm x kk)
  simp only [Instr.spelling] at h
  simp [Statement, Instr.spelling, Sys2Proof.Spelling.instr?, h, regByteInstr]
theorem ldReg (x y : RegNum) : Statement (.ldReg x y) := by
  have h := wellFormed_spelling (.ldReg x y)
  simp only [Instr.spelling] at h
  simp [Statement, Instr.spelling, Sys2Proof.Spelling.instr?, h, regRegInstr]
theorem orReg (x y : RegNum) : Statement (.orReg x y) := by
  have h := wellFormed_spelling (.orReg x y)
  simp only [Instr.spelling] at h
  simp [Statement, Instr.spelling, Sys2Proof.Spelling.instr?, h, regRegInstr]
theorem andReg (x y : RegNum) : Statement (.andReg x y) := by
  have h := wellFormed_spelling (.andReg x y)
  simp only [Instr.spelling] at h
  simp [Statement, Instr.spelling, Sys2Proof.Spelling.instr?, h, regRegInstr]
theorem xorReg (x y : RegNum) : Statement (.xorReg x y) := by
  have h := wellFormed_spelling (.xorReg x y)
  simp only [Instr.spelling] at h
  simp [Statement, Instr.spelling, Sys2Proof.Spelling.instr?, h, regRegInstr]
theorem addReg (x y : RegNum) : Statement (.addReg x y) := by
  have h := wellFormed_spelling (.addReg x y)
  simp only [Instr.spelling] at h
  simp [Statement, Instr.spelling, Sys2Proof.Spelling.instr?, h, regRegInstr]
theorem subReg (x y : RegNum) : Statement (.subReg x y) := by
  have h := wellFormed_spelling (.subReg x y)
  simp only [Instr.spelling] at h
  simp [Statement, Instr.spelling, Sys2Proof.Spelling.instr?, h, regRegInstr]
theorem shr (x y : RegNum) : Statement (.shr x y) := by
  have h := wellFormed_spelling (.shr x y)
  by_cases hy : y = 0#4
  · subst hy
    simp only [Instr.spelling, shiftOperands_zero] at h
    simp [Statement, Instr.spelling, Sys2Proof.Spelling.instr?, shiftOperands_zero, h, regRegInstr]
  · simp only [Instr.spelling, shiftOperands_ne hy] at h
    simp [Statement, Instr.spelling, Sys2Proof.Spelling.instr?, shiftOperands_ne hy, h, regRegInstr]
theorem subnReg (x y : RegNum) : Statement (.subnReg x y) := by
  have h := wellFormed_spelling (.subnReg x y)
  simp only [Instr.spelling] at h
  simp [Statement, Instr.spelling, Sys2Proof.Spelling.instr?, h, regRegInstr]
theorem shl (x y : RegNum) : Statement (.shl x y) := by
  have h := wellFormed_spelling (.shl x y)
  by_cases hy : y = 0#4
  · subst hy
    simp only [Instr.spelling, shiftOperands_zero] at h
    simp [Statement, Instr.spelling, Sys2Proof.Spelling.instr?, shiftOperands_zero, h, regRegInstr]
  · simp only [Instr.spelling, shiftOperands_ne hy] at h
    simp [Statement, Instr.spelling, Sys2Proof.Spelling.instr?, shiftOperands_ne hy, h, regRegInstr]

end Sys2Proof.Laws.Spelling
end

