-- ==== Sys2Proof/Laws/State.lean ====
section
/-! SUPPORT. One lemma per field per update of the state, and the register file's read-after-write laws. -/

namespace Sys2Proof.Machine

/-! ### setReg -/

@[simp] theorem State.setReg_mem (s : State) (x b) : (s.setReg x b).mem = s.mem := rfl
@[simp] theorem State.setReg_i (s : State) (x b) : (s.setReg x b).i = s.i := rfl
@[simp] theorem State.setReg_pc (s : State) (x b) : (s.setReg x b).pc = s.pc := rfl
@[simp] theorem State.setReg_stack (s : State) (x b) : (s.setReg x b).stack = s.stack := rfl
@[simp] theorem State.setReg_sp (s : State) (x b) : (s.setReg x b).sp = s.sp := rfl
@[simp] theorem State.setReg_dt (s : State) (x b) : (s.setReg x b).dt = s.dt := rfl
@[simp] theorem State.setReg_st (s : State) (x b) : (s.setReg x b).st = s.st := rfl
@[simp] theorem State.setReg_fb (s : State) (x b) : (s.setReg x b).fb = s.fb := rfl
@[simp] theorem State.setReg_fault (s : State) (x b) : (s.setReg x b).fault = s.fault := rfl

/-- What a register reads as after a register write. -/
theorem State.reg_setReg (s : State) (x y : RegNum) (b : Byte) :
    (s.setReg x b).reg y = if y = x then b else s.reg y := by
  unfold State.setReg State.reg
  by_cases h : y = x
  · subst h; simp
  · have h' : x.toNat ≠ y.toNat := fun e => h (BitVec.eq_of_toNat_eq e.symm)
    simp [h, Vector.getElem_set_ne, h']

@[simp] theorem State.reg_setReg_same (s : State) (x : RegNum) (b : Byte) :
    (s.setReg x b).reg x = b := by simp [State.reg_setReg]

theorem State.reg_setReg_other (s : State) {x y : RegNum} (b : Byte) (h : y ≠ x) :
    (s.setReg x b).reg y = s.reg y := by simp [State.reg_setReg, h]

/-! ### setRegThenFlag -/

@[simp] theorem State.setRegThenFlag_mem (s : State) (x b f) : (s.setRegThenFlag x b f).mem = s.mem := rfl
@[simp] theorem State.setRegThenFlag_i (s : State) (x b f) : (s.setRegThenFlag x b f).i = s.i := rfl
@[simp] theorem State.setRegThenFlag_pc (s : State) (x b f) : (s.setRegThenFlag x b f).pc = s.pc := rfl
@[simp] theorem State.setRegThenFlag_stack (s : State) (x b f) : (s.setRegThenFlag x b f).stack = s.stack := rfl
@[simp] theorem State.setRegThenFlag_sp (s : State) (x b f) : (s.setRegThenFlag x b f).sp = s.sp := rfl
@[simp] theorem State.setRegThenFlag_dt (s : State) (x b f) : (s.setRegThenFlag x b f).dt = s.dt := rfl
@[simp] theorem State.setRegThenFlag_st (s : State) (x b f) : (s.setRegThenFlag x b f).st = s.st := rfl
@[simp] theorem State.setRegThenFlag_fb (s : State) (x b f) : (s.setRegThenFlag x b f).fb = s.fb := rfl
@[simp] theorem State.setRegThenFlag_fault (s : State) (x b f) : (s.setRegThenFlag x b f).fault = s.fault := rfl

/-- What a register reads as after a result and a flag are written: the flag is last. -/
theorem State.reg_setRegThenFlag (s : State) (x y : RegNum) (b f : Byte) :
    (s.setRegThenFlag x b f).reg y = if y = vf then f else if y = x then b else s.reg y := by
  simp [State.setRegThenFlag, State.reg_setReg]

/-! ### act -/

@[simp] theorem State.act_mem (s : State) (a) : (s.act a).mem = s.mem := rfl
@[simp] theorem State.act_v (s : State) (a) : (s.act a).v = s.v := rfl
@[simp] theorem State.act_i (s : State) (a) : (s.act a).i = s.i := rfl
@[simp] theorem State.act_pc (s : State) (a : Action) : (s.act a).pc = a.target s.pc := rfl
@[simp] theorem State.act_stack (s : State) (a) : (s.act a).stack = s.stack := rfl
@[simp] theorem State.act_sp (s : State) (a) : (s.act a).sp = s.sp := rfl
@[simp] theorem State.act_dt (s : State) (a) : (s.act a).dt = s.dt := rfl
@[simp] theorem State.act_st (s : State) (a) : (s.act a).st = s.st := rfl
@[simp] theorem State.act_fb (s : State) (a) : (s.act a).fb = s.fb := rfl
@[simp] theorem State.act_fault (s : State) (a) : (s.act a).fault = s.fault := rfl
@[simp] theorem State.act_reg (s : State) (a) (x : RegNum) : (s.act a).reg x = s.reg x := rfl

@[simp] theorem Action.target_next (pc : Addr) : Action.target pc .next = pc + 2 := rfl
@[simp] theorem Action.target_skip (pc : Addr) : Action.target pc .skip = pc + 4 := rfl
@[simp] theorem Action.target_jump (pc a : Addr) : Action.target pc (.jump a) = a := rfl

/-! ### clearFrame -/

@[simp] theorem State.clearFrame_mem (s : State) : s.clearFrame.mem = s.mem := rfl
@[simp] theorem State.clearFrame_v (s : State) : s.clearFrame.v = s.v := rfl
@[simp] theorem State.clearFrame_i (s : State) : s.clearFrame.i = s.i := rfl
@[simp] theorem State.clearFrame_pc (s : State) : s.clearFrame.pc = s.pc := rfl
@[simp] theorem State.clearFrame_stack (s : State) : s.clearFrame.stack = s.stack := rfl
@[simp] theorem State.clearFrame_sp (s : State) : s.clearFrame.sp = s.sp := rfl
@[simp] theorem State.clearFrame_dt (s : State) : s.clearFrame.dt = s.dt := rfl
@[simp] theorem State.clearFrame_st (s : State) : s.clearFrame.st = s.st := rfl
@[simp] theorem State.clearFrame_fb (s : State) : s.clearFrame.fb = blankFrame := rfl
@[simp] theorem State.clearFrame_fault (s : State) : s.clearFrame.fault = s.fault := rfl
@[simp] theorem State.clearFrame_reg (s : State) (x : RegNum) : s.clearFrame.reg x = s.reg x := rfl

/-- Every pixel of the cleared frame buffer is 0. -/
@[simp] theorem State.pixel_clearFrame (s : State) (row : Fin 32) (col : Fin 64) :
    s.clearFrame.pixel row col = 0 := by
  simp [State.pixel, State.clearFrame, blankFrame]

/-! ### timerTick -/

@[simp] theorem State.timerTick_mem (s : State) (d e) : (s.timerTick d e).mem = s.mem := rfl
@[simp] theorem State.timerTick_v (s : State) (d e) : (s.timerTick d e).v = s.v := rfl
@[simp] theorem State.timerTick_i (s : State) (d e) : (s.timerTick d e).i = s.i := rfl
@[simp] theorem State.timerTick_pc (s : State) (d e) : (s.timerTick d e).pc = s.pc := rfl
@[simp] theorem State.timerTick_stack (s : State) (d e) : (s.timerTick d e).stack = s.stack := rfl
@[simp] theorem State.timerTick_sp (s : State) (d e) : (s.timerTick d e).sp = s.sp := rfl
@[simp] theorem State.timerTick_fb (s : State) (d e) : (s.timerTick d e).fb = s.fb := rfl
@[simp] theorem State.timerTick_fault (s : State) (d e) : (s.timerTick d e).fault = s.fault := rfl

/-! ### placeWord -/

@[simp] theorem State.placeWord_v (s : State) (w) : (s.placeWord w).v = s.v := rfl
@[simp] theorem State.placeWord_i (s : State) (w) : (s.placeWord w).i = s.i := rfl
@[simp] theorem State.placeWord_pc (s : State) (w) : (s.placeWord w).pc = s.pc := rfl
@[simp] theorem State.placeWord_stack (s : State) (w) : (s.placeWord w).stack = s.stack := rfl
@[simp] theorem State.placeWord_sp (s : State) (w) : (s.placeWord w).sp = s.sp := rfl
@[simp] theorem State.placeWord_dt (s : State) (w) : (s.placeWord w).dt = s.dt := rfl
@[simp] theorem State.placeWord_st (s : State) (w) : (s.placeWord w).st = s.st := rfl
@[simp] theorem State.placeWord_fb (s : State) (w) : (s.placeWord w).fb = s.fb := rfl
@[simp] theorem State.placeWord_fault (s : State) (w) : (s.placeWord w).fault = s.fault := rfl

/-! ### the call stack -/

/-- Where a push answers, and what it answers: the pointer one up, the slot it then points to written. -/
theorem State.push_eq_some {s s' : State} {a : Addr} (h : s.push a = some s') :
    ∃ hs : s.sp.toNat + 1 < 16,
      s' = { s with sp := s.sp + 1, stack := s.stack.set (s.sp.toNat + 1) a hs } := by
  unfold State.push at h
  split at h
  · next hs => exact ⟨hs, (Option.some.inj h).symm⟩
  · cases h

/-- A push answers wherever the array has the slot. -/
theorem State.push_of_room {s : State} (a : Addr) (hs : s.sp.toNat + 1 < 16) :
    s.push a = some { s with sp := s.sp + 1, stack := s.stack.set (s.sp.toNat + 1) a hs } := by
  simp [State.push, hs]

/-- Where a pop answers, and what it answers: the slot read, the pointer one down, the slot kept. -/
theorem State.pop_eq_some {s s' : State} {a : Addr} (h : s.pop = some (a, s')) :
    ∃ hs : s.sp.toNat < 16, a = s.stack[s.sp.toNat] ∧ s' = { s with sp := s.sp - 1 } := by
  unfold State.pop at h
  split at h
  · next hs => cases h; exact ⟨hs, rfl, rfl⟩
  · cases h

/-- A pop answers wherever the array has the slot. -/
theorem State.pop_of_slot {s : State} (hs : s.sp.toNat < 16) :
    s.pop = some (s.stack[s.sp.toNat], { s with sp := s.sp - 1 }) := by
  simp [State.pop, hs]

/-! ### the ends of an execution -/

/-- What a completed instruction answers. -/
@[simp] theorem complete_eq_next {s t : State} {a : Action} : complete s a = .next t ↔ t = s.act a := by
  simp [complete, eq_comm]

/-- What fault entry answers: the state with the record, nothing else changed. -/
@[simp] theorem raise_eq_next {s t : State} {c : FaultCode} {w : Option Word} :
    raise c w s = .next t ↔ t = { s with fault := some ⟨c, s.pc, w⟩ } := by
  simp [raise, eq_comm]

@[simp] theorem complete_ne_fault {s : State} {a : Action} {r : Fault} : complete s a ≠ .fault r := by
  simp [complete]

@[simp] theorem raise_ne_fault {s : State} {c : FaultCode} {w : Option Word} {r : Fault} :
    raise c w s ≠ .fault r := by
  simp [raise]

@[simp] theorem complete_ne_refused {s : State} {a : Action} {r : Refusal} : complete s a ≠ .refused r := by
  simp [complete]

@[simp] theorem raise_ne_refused {s : State} {c : FaultCode} {w : Option Word} {r : Refusal} :
    raise c w s ≠ .refused r := by
  simp [raise]

end Sys2Proof.Machine
end

