-- ==== Sys2Proof/Laws/Step.lean ====
section
/-! SUPPORT. What the fetch, the cycle and the shared ends of an execution can do, said once. -/

namespace Sys2Proof.Machine

open Sys2Proof.Safety

/-! ### fetch -/

theorem fetch_of_odd {s : State} (h : s.pc.getLsbD 0 = true) : fetch s = .error .misalignedFetch := by
  simp only [fetch, h, if_true]

theorem fetch_of_high {s : State} (h : s.pc.getLsbD 0 = false) (h' : s.pc.toNat > 0x0FFE) :
    fetch s = .error .fetchOutOfBounds := by
  simp only [fetch, h, Bool.false_eq_true, if_false, h', if_true]

theorem fetch_of_fetchable {s : State} (h : Fetchable s) : fetch s = .ok (wordAtPc s) := by
  have h' : ¬s.pc.toNat > 0x0FFE := Nat.not_lt.2 h.2
  simp only [fetch, h.1, Bool.false_eq_true, if_false, h', wordAtPc, wordOfBytes]

/-- Everything a fetch can answer. -/
theorem fetch_cases (s : State) :
    (s.pc.getLsbD 0 = true ∧ fetch s = .error .misalignedFetch) ∨
    (s.pc.getLsbD 0 = false ∧ s.pc.toNat > 0x0FFE ∧ fetch s = .error .fetchOutOfBounds) ∨
    (Fetchable s ∧ fetch s = .ok (wordAtPc s)) := by
  cases h : s.pc.getLsbD 0 with
  | true => exact .inl ⟨rfl, fetch_of_odd h⟩
  | false =>
    by_cases h' : s.pc.toNat > 0x0FFE
    · exact .inr (.inl ⟨rfl, h', fetch_of_high h h'⟩)
    · have hf : Fetchable s := ⟨h, Nat.not_lt.1 h'⟩
      exact .inr (.inr ⟨hf, fetch_of_fetchable hf⟩)

/-! ### cycle -/

variable {execute : Instr → State → Result} {s t : State}

theorem cycle_of_faulted {r : FaultRecord} (h : s.fault = some r) :
    cycle execute s = .fault (.halted r) := by
  simp only [cycle, h]

theorem cycle_of_fetch_error {c : FaultCode} (h : s.fault = none) (hf : fetch s = .error c) :
    cycle execute s = raise c none s := by
  simp only [cycle, h, hf]

theorem cycle_of_unknown {w : Word} {e : DecodeError} (h : s.fault = none) (hf : fetch s = .ok w)
    (hd : decode w = .error e) : cycle execute s = raise .unknownInstruction (some w) s := by
  simp only [cycle, h, hf, hd]

theorem cycle_of_decoded {w : Word} {i : Instr} (h : s.fault = none) (hf : fetch s = .ok w)
    (hd : decode w = .ok i) : cycle execute s = execute i s := by
  simp only [cycle, h, hf, hd]

/-- Everything a cycle that answers a next state can have done: the core had not faulted, and it raised a fault
of the fetch, raised UnknownInstruction, or executed the word at pc. -/
theorem cycle_next_cases (h : cycle execute s = .next t) :
    s.fault = none ∧
    ((∃ c, fetch s = .error c ∧ t = { s with fault := some ⟨c, s.pc, none⟩ }) ∨
     (Fetchable s ∧ (∀ i, decode (wordAtPc s) ≠ .ok i) ∧
        t = { s with fault := some ⟨.unknownInstruction, s.pc, some (wordAtPc s)⟩ }) ∨
     (Fetchable s ∧ ∃ i, decode (wordAtPc s) = .ok i ∧ execute i s = .next t)) := by
  cases hs : s.fault with
  | some r => rw [cycle_of_faulted hs] at h; cases h
  | none =>
    refine ⟨rfl, ?_⟩
    rcases fetch_cases s with ⟨-, hf⟩ | ⟨-, -, hf⟩ | ⟨hp, hf⟩
    · rw [cycle_of_fetch_error hs hf] at h
      exact .inl ⟨_, hf, raise_eq_next.1 h⟩
    · rw [cycle_of_fetch_error hs hf] at h
      exact .inl ⟨_, hf, raise_eq_next.1 h⟩
    · cases hd : decode (wordAtPc s) with
      | error e =>
        rw [cycle_of_unknown hs hf hd] at h
        exact .inr (.inl ⟨hp, (fun i hi => by cases hi), raise_eq_next.1 h⟩)
      | ok i =>
        rw [cycle_of_decoded hs hf hd] at h
        exact .inr (.inr ⟨hp, i, rfl, h⟩)

/-! ### The shared ends of an execution, as frames -/

/-- Writing one register and going on. -/
theorem wroteReg_of_setReg (s : State) (x : RegNum) (b : Byte) :
    WroteReg s ((s.setReg x b).act .next) x b where
  rest := ⟨fun _ => rfl, rfl, rfl, rfl, rfl, rfl, rfl, rfl⟩
  pc := rfl
  dest := by simp
  others := fun r hr => by simp [State.reg_setReg_other s b hr]

/-- Writing a result and a flag and going on. -/
theorem wroteRegAndFlag_of_setRegThenFlag (s : State) (x : RegNum) (b f : Byte) :
    WroteRegAndFlag s ((s.setRegThenFlag x b f).act .next) x b f where
  rest := ⟨fun _ => rfl, rfl, rfl, rfl, rfl, rfl, rfl, rfl⟩
  pc := rfl
  flag := by simp [State.reg_setRegThenFlag]
  dest := fun h => by simp [State.reg_setRegThenFlag, h]
  others := fun r hx hf => by simp [State.reg_setRegThenFlag, hx, hf]

/-- Only moving pc. -/
theorem onlyMovedPc_of_act (s : State) (a : Action) : OnlyMovedPc s (s.act a) (a.target s.pc) where
  rest := ⟨fun _ => rfl, rfl, rfl, rfl, rfl, rfl, rfl, rfl⟩
  pc := rfl
  regs := fun _ => rfl

/-- The pc a conditional skip leaves. -/
theorem target_skipIf (pc : Addr) (c : Bool) : (skipIf c).target pc = if c then pc + 4 else pc + 2 := by
  cases c <;> rfl

/-! ### RET and CALL, the two meanings with more than one end -/

/-- Everything a RET that answers a next state can have done. -/
theorem execRet_next_cases (h : execRet s = .next t) :
    (s.sp = 0 ∧ t = { s with fault := some ⟨.stackUnderflow, s.pc, some 0x00EE⟩ }) ∨
    (s.sp ≠ 0 ∧ ∃ hs : s.sp.toNat < 16, t = { s with sp := s.sp - 1, pc := s.stack[s.sp.toNat] }) := by
  unfold execRet at h
  split at h
  · next h0 => exact .inl ⟨h0, raise_eq_next.1 h⟩
  · next h0 =>
    refine .inr ⟨h0, ?_⟩
    split at h
    · next a s' hp =>
      obtain ⟨hs, rfl, rfl⟩ := State.pop_eq_some hp
      exact ⟨hs, complete_eq_next.1 h⟩
    · cases h

/-- Everything a CALL that answers a next state can have done. -/
theorem execCall_next_cases {nnn : Addr12} (h : execCall nnn s = .next t) :
    (s.sp = 15 ∧ t = { s with fault := some ⟨.stackOverflow, s.pc, some (encode (.call nnn))⟩ }) ∨
    (s.sp ≠ 15 ∧ ∃ hs : s.sp.toNat + 1 < 16,
      t = { s with sp := s.sp + 1, stack := s.stack.set (s.sp.toNat + 1) (s.pc + 2) hs, pc := jumpTarget nnn }) := by
  unfold execCall at h
  split at h
  · next h0 => exact .inl ⟨h0, raise_eq_next.1 h⟩
  · next h0 =>
    refine .inr ⟨h0, ?_⟩
    split at h
    · next s' hp =>
      obtain ⟨hs, rfl⟩ := State.push_eq_some hp
      exact ⟨hs, complete_eq_next.1 h⟩
    · cases h

end Sys2Proof.Machine
end

