-- ==== Sys2Proof/Tests/Slice0.lean ====
section
/-! SUPPORT. Small tests. Expected results are the spec's worked examples and vectors (95_test_vectors.md, the id
in each comment), or worked out by hand from the rule named. The witnesses at the end meet the hypotheses of the
statements in Certificates/Slice0/Obligations.lean. -/

namespace Sys2Proof.Tests

open Sys2Proof.Machine Sys2Proof.Safety

/-! ### WellFormed refuses what it should (30_encoding.md R50) -/

theorem test_wf_register_out_of_range : Spelling.wellFormed ⟨"LD", [.reg 16, .byte 0]⟩ = false := by decide
theorem test_wf_byte_out_of_range : Spelling.wellFormed ⟨"LD", [.reg 0, .byte 256]⟩ = false := by decide
theorem test_wf_address_out_of_range : Spelling.wellFormed ⟨"JP", [.addr 4096]⟩ = false := by decide
theorem test_wf_unknown_mnemonic : Spelling.wellFormed ⟨"DRW", [.reg 0, .reg 1]⟩ = false := by decide
theorem test_wf_wrong_operands : Spelling.wellFormed ⟨"CLS", [.reg 0]⟩ = false := by decide
theorem test_wf_shift_names_y_zero : Spelling.wellFormed ⟨"SHR", [.reg 4, .reg 0]⟩ = false := by decide
theorem test_wf_accepts_the_edges :
    Spelling.wellFormed ⟨"SE", [.reg 15, .byte 255]⟩ = true ∧ Spelling.wellFormed ⟨"CALL", [.addr 4095]⟩ = true := by
  decide
theorem test_ill_formed_spelling_is_no_instruction : Spelling.instr? ⟨"ADD", [.reg 16, .byte 1]⟩ = none := by
  decide

/-! ### Decode, on words written out bit by bit from the patterns of 30_encoding.md R44 -/

theorem test_decode_cls : decode 0b0000000011100000 = .ok .cls := by decide
theorem test_decode_ret : decode 0b0000000011101110 = .ok .ret := by decide
theorem test_decode_jp : decode 0b0001101010111100 = .ok (.jp 0xABC) := by decide
theorem test_decode_call : decode 0b0010001100000001 = .ok (.call 0x301) := by decide
theorem test_decode_seImm : decode 0b0011001100010010 = .ok (.seImm 3 0x12) := by decide
theorem test_decode_sneImm : decode 0b0100111100000001 = .ok (.sneImm 15 0x01) := by decide
theorem test_decode_seReg : decode 0b0101000100100000 = .ok (.seReg 1 2) := by decide
theorem test_decode_ldImm : decode 0b0110101001000010 = .ok (.ldImm 10 0x42) := by decide
theorem test_decode_addImm : decode 0b0111000011111111 = .ok (.addImm 0 0xFF) := by decide
theorem test_decode_ldReg : decode 0b1000000100100000 = .ok (.ldReg 1 2) := by decide
theorem test_decode_orReg : decode 0b1000000100100001 = .ok (.orReg 1 2) := by decide
theorem test_decode_andReg : decode 0b1000000100100010 = .ok (.andReg 1 2) := by decide
theorem test_decode_xorReg : decode 0b1000000100100011 = .ok (.xorReg 1 2) := by decide
theorem test_decode_addReg : decode 0b1000111100010100 = .ok (.addReg 15 1) := by decide
theorem test_decode_subReg : decode 0b1000000111110101 = .ok (.subReg 1 15) := by decide
theorem test_decode_shr : decode 0b1000010000110110 = .ok (.shr 4 3) := by decide
theorem test_decode_subnReg : decode 0b1000010000110111 = .ok (.subnReg 4 3) := by decide
theorem test_decode_shl : decode 0b1000000111111110 = .ok (.shl 1 15) := by decide

/-- Reserved neighbours do not fall through (30_encoding.md R47; T40-4, T42-9, T44-43, T44-44, T20-8). -/
theorem test_decode_unknown :
    [0x00E1, 0x0022, 0x5121, 0x8128, 0x812F, 0x9120, 0xF107].all
      (fun w => decode w == .error (.unknownInstruction w)) = true := by decide

theorem test_encode_words :
    encode .ret = 0x00EE ∧ encode (.jp 0xABC) = 0x1ABC ∧ encode (.addImm 0 3) = 0x7003 ∧
      encode (.shr 4 3) = 0x8436 := by decide

/-- Lines of the programs P1 and P3 (95_test_vectors.md). -/
theorem test_assembly_text :
    (Instr.jp 0x20C).spelling.text = "JP 0x20C" ∧ (Instr.ldImm 0 0x05).spelling.text = "LD V0, 0x05" ∧
      (Instr.shr 4 3).spelling.text = "SHR V4, V3" ∧ (Instr.shl 15 0).spelling.text = "SHL VF" := by decide

theorem test_decode_bytes_rest : decodeBytes [0x81, 0x0E, 0x12] = .ok (.shl 1 0, [0x12]) := by decide
theorem test_decode_bytes_truncated : decodeBytes [0x81] = .error .truncated := by decide
theorem test_decodeTableWord : decodeTableWord 16 0x00EE = some .ret := by decide

/-! ### One step, from the vectors of 95_test_vectors.md -/

/-- The state a step answers, where it answers one. -/
def stepped (s : State) : Option State :=
  match step s with
  | .next t => some t
  | .fault _ => none
  | .refused _ => none

/-- The construction state with a word at 0x200. -/
def start (w : Nat) : State := State.reset.withFetchWord 16 w

/-- The registers named, after a step. -/
def regsAfter (s : State) (xs : List RegNum) : Option (List Byte) :=
  (stepped s).map fun t => xs.map t.reg

/-- The pc after a step. -/
def pcAfter (s : State) : Option Addr := (stepped s).map (·.pc)

/-- The fault status after a step. -/
def faultAfter (s : State) : Option (Option FaultRecord) := (stepped s).map (·.fault)

/-- S4: the big-endian fetch. -/
theorem test_fetch_big_endian : fetch (start 0xB15A) = .ok 0xB15A := by decide
/-- T20-1 -/
theorem test_misaligned_fetch :
    faultAfter { start 0x1200 with pc := 0x201 } = some (some ⟨.misalignedFetch, 0x201, none⟩) := by decide
/-- T20-2 -/
theorem test_fetch_out_of_bounds :
    faultAfter { State.reset with pc := 0x1000 } = some (some ⟨.fetchOutOfBounds, 0x1000, none⟩) := by decide
/-- T20-3: MisalignedFetch comes first. -/
theorem test_fetch_priority :
    faultAfter { State.reset with pc := 0xFFF } = some (some ⟨.misalignedFetch, 0xFFF, none⟩) := by decide
/-- T20-4: the last fetchable word. -/
theorem test_last_fetch :
    pcAfter (State.withFetchWord { State.reset with pc := 0xFFE } 16 0x1200) = some 0x200 := by decide
/-- T20-6: the zero word of unloaded memory. -/
theorem test_reset_runs_into_unknown :
    faultAfter State.reset = some (some ⟨.unknownInstruction, 0x200, some 0x0000⟩) := by decide
/-- T20-7, T20-12: the unknown word faults, and the faulted core takes no further step. -/
theorem test_faulted_core_stops :
    (stepped (start 0x0022)).map stepped = some none := by decide

/-- The numbers of 60_exceptions.md R73. -/
theorem test_fault_numbers :
    [FaultCode.unknownInstruction, .stackOverflow, .stackUnderflow, .misalignedFetch, .fetchOutOfBounds].map
      FaultCode.number = [1, 2, 3, 4, 5] := by decide

/-- T40-1 -/
theorem test_cls_clears :
    (stepped { start 0x00E0 with fb := blankFrame.set 10 (Vector.replicate 64 1) }).map
      (fun t => (t.pixel 10 20, t.pc)) = some (0, 0x202) := by decide
/-- T40-3 -/
theorem test_cls_keeps_registers :
    regsAfter (((start 0x00E0).setReg 3 0x77).setReg 15 0x01) [3, 15] = some [0x77, 0x01] := by decide

/-- T41-8: the slot is not cleared. -/
theorem test_ret_pops :
    (stepped { start 0x00EE with sp := 1, stack := State.reset.stack.set 1 0x0202 }).map
      (fun t => (t.pc, t.sp, t.stack[1])) = some (0x202, 0, 0x202) := by decide
/-- T41-9 -/
theorem test_ret_underflow :
    faultAfter (start 0x00EE) = some (some ⟨.stackUnderflow, 0x200, some 0x00EE⟩) := by decide
/-- T41-1 -/
theorem test_jp : pcAfter (start 0x1ABC) = some 0xABC := by decide
/-- T41-2: the fixed point. -/
theorem test_jp_to_itself : stepped (start 0x1200) = some (start 0x1200) := by decide
/-- T41-5 -/
theorem test_call_pushes :
    (stepped (start 0x2300)).map (fun t => (t.pc, t.sp, t.stack[1], t.stack[0])) =
      some (0x300, 1, 0x202, 0) := by decide
/-- T41-7 -/
theorem test_call_overflow :
    faultAfter { start 0x2300 with sp := 15 } = some (some ⟨.stackOverflow, 0x200, some 0x2300⟩) := by decide

/-- T42-1 -/
theorem test_se_imm_skips : pcAfter ((start 0x3312).setReg 3 0x12) = some 0x204 := by decide
/-- T42-10: a skip past the end of memory. -/
theorem test_se_imm_skips_past_the_end :
    pcAfter (State.withFetchWord { State.reset with pc := 0xFFE } 16 0x3000) = some 0x1002 := by decide
/-- T42-4 -/
theorem test_sne_imm_equal : pcAfter ((start 0x4312).setReg 3 0x12) = some 0x202 := by decide
/-- T42-5 -/
theorem test_sne_imm_different : pcAfter ((start 0x4300).setReg 3 0x12) = some 0x204 := by decide
/-- T42-8: x = y. -/
theorem test_se_reg_same : pcAfter ((start 0x5550).setReg 5 0x99) = some 0x204 := by decide
/-- T42-7 (at 0x200). -/
theorem test_se_reg_different :
    pcAfter (((start 0x5120).setReg 1 0x7F).setReg 2 0x80) = some 0x202 := by decide

/-- T43-1 -/
theorem test_ld_imm : regsAfter (start 0x6A42) [10] = some [0x42] := by decide
/-- T43-4: the wrap writes no flag. -/
theorem test_add_imm_wraps :
    regsAfter (((start 0x7001).setReg 0 0xFF).setReg 15 0x55) [0, 15] = some [0x00, 0x55] := by decide
/-- T43-6: x = 15. -/
theorem test_add_imm_vf : regsAfter ((start 0x7F01).setReg 15 0xFF) [15] = some [0x00] := by decide

/-- T44-1 -/
theorem test_ld_reg : regsAfter ((start 0x8120).setReg 2 0x5A) [1, 2] = some [0x5A, 0x5A] := by decide
/-- T44-4: VF is not written. -/
theorem test_or_keeps_vf :
    regsAfter ((((start 0x8121).setReg 1 0xF0).setReg 2 0x0F).setReg 15 0x77) [1, 2, 15] =
      some [0xFF, 0x0F, 0x77] := by decide
/-- T44-6 -/
theorem test_and : regsAfter (((start 0x8122).setReg 1 0xF3).setReg 2 0x3C) [1] = some [0x30] := by decide
/-- T44-8 -/
theorem test_xor : regsAfter (((start 0x8123).setReg 1 0xFF).setReg 2 0x0F) [1] = some [0xF0] := by decide
/-- T44-16: x = 15, the carry overwrites the sum. -/
theorem test_add_vf_destination :
    regsAfter (((start 0x8F14).setReg 15 0x10).setReg 1 0xF0) [15] = some [0x01] := by decide
/-- T44-17: y = 15, the old VF is the addend. -/
theorem test_add_vf_source :
    regsAfter (((start 0x81F4).setReg 1 0x01).setReg 15 0xFF) [1, 15] = some [0x00, 0x01] := by decide
/-- T44-19: the borrow is 1 on underflow. -/
theorem test_sub_borrows :
    regsAfter (((start 0x8125).setReg 1 0x01).setReg 2 0x02) [1, 15] = some [0xFF, 0x01] := by decide
/-- T44-21: equal operands do not borrow. -/
theorem test_sub_equal :
    regsAfter ((((start 0x8125).setReg 1 0x07).setReg 2 0x07).setReg 15 0x01) [1, 15] =
      some [0x00, 0x00] := by decide
/-- T44-26: y is ignored. -/
theorem test_shr : regsAfter ((start 0x8436).setReg 4 0x07) [4, 15, 3] = some [0x03, 0x01, 0x00] := by decide
/-- T44-31: x = 15, old bit 0 of VF. -/
theorem test_shr_vf : regsAfter ((start 0x8F06).setReg 15 0x03) [15] = some [0x01] := by decide
/-- T44-34 -/
theorem test_subn_borrows :
    regsAfter (((start 0x8127).setReg 1 0x02).setReg 2 0x01) [1, 15] = some [0xFF, 0x01] := by decide
/-- T44-37: y = 15, the old VF is the minuend. -/
theorem test_subn_vf_source :
    regsAfter (((start 0x81F7).setReg 1 0x01).setReg 15 0x03) [1, 15] = some [0x02, 0x00] := by decide
/-- T44-27 (S5) -/
theorem test_shl : regsAfter ((start 0x810E).setReg 1 0x81) [1, 15] = some [0x02, 0x01] := by decide
/-- T44-42: x = 15. -/
theorem test_shl_vf : regsAfter ((start 0x8F0E).setReg 15 0x40) [15] = some [0x00] := by decide

/-! ### The host's operations (70_reset_and_hazards.md R97, R99; 60_exceptions.md R85) -/

theorem test_timer_tick :
    (fun t : State => (t.dt, t.st)) (State.timerTick { State.reset with dt := 1, st := 0 } true true) = (0, 0) := by
  decide
theorem test_load :
    (State.reset.load [0x60, 0x05]).map (fun t => (t.mem.read 0x200, t.mem.read 0x201, t.mem.read 0x202)) =
      some (0x60, 0x05, 0x00) := by decide
theorem test_load_after_step :
    Session.op ⟨State.reset, .running⟩ (.load [0x60]) = .notAllowed .loadAfterFirstStep := by decide
/-- The canonical form: writing what an unlisted address reads as takes the pair out. -/
theorem test_write_unlisted :
    Memory.write (Memory.write [] 0x200 0x12) 0x200 0x00 = [] ∧
      Memory.write (Memory.write [] 0x201 0x34) 0x200 0x12 = [(0x200, 0x12), (0x201, 0x34)] := by decide

/-! ### The font region (10_state.md R25; T20-5), with FONT named as a hypothesis -/

theorem test_font_fetched_as_code (h : Config.FontIsConventional) :
    step { State.reset with pc := 0x000 } =
      .next { State.reset with pc := 0x000, fault := some ⟨.unknownInstruction, 0x000, some 0xF090⟩ } := by
  have h0 : Config.font[0] = 0xF0 := by
    have := congrArg (·[0]?) h
    simpa [Config.conventionalFont] using this
  have h1 : Config.font[1] = 0x90 := by
    have := congrArg (·[1]?) h
    simpa [Config.conventionalFont] using this
  have hw : wordAtPc { State.reset with pc := 0x000 } = 0xF090 := by
    simp only [wordAtPc]
    change (Config.font[0] ++ Config.font[1] : Word) = 0xF090
    rw [h0, h1]; rfl
  have hf := fetch_of_fetchable (s := { State.reset with pc := 0x000 }) ⟨by decide, by decide⟩
  rw [hw] at hf
  exact cycle_of_unknown rfl hf (e := .unknownInstruction 0xF090) rfl

end Sys2Proof.Tests
end

