-- ==== Sys2Proof/Tests/Witnesses.lean ====
section
/-! SUPPORT. For each statement of Certificates/Slice0/Obligations.lean that has hypotheses, a concrete state and
operands that meet them all (one witness a clause where it has several), named witness_<statement>. -/

namespace Sys2Proof.Tests

open Sys2Proof.Machine Sys2Proof.Safety

/-- A core with a CALL loaded at 0x200 meets the invariant; used where a witness needs `Inv`. -/
theorem inv_start_call : Inv (start 0x2300) where
  memory := by decide
  spLegal := by decide
  pcBound := by decide
  slotBound := by decide
  slotZero := rfl
  indexZero := rfl
  recordPc := fun r h => by cases h

/-! ### Encoding -/

theorem witness_DecodingTheEncodingGivesTheInstruction : (Instr.shl 15 15).wellFormed = true := by decide
theorem witness_EveryDecodedWordIsTheEncoding : decode 0x8FFE = .ok (.shl 15 15) := by decide
theorem witness_DecodeFollowsTheOpcodeTable :
    decode 0x800E = .ok (.shl 0 0) ∧ Instr.row (.shl 0 0) ∈ opcodeRows ∧
      (0x800E : Word) &&& (Instr.row (.shl 0 0)).mask = (Instr.row (.shl 0 0)).value := by decide
/-- Each of the four sets at its boundary, and the words beside them that decode. -/
theorem witness_UnknownWordsAreTheListedRanges :
    [0x0000, 0x00DF, 0x00E1, 0x00ED, 0x00EF, 0x0FFF, 0x5001, 0x5FFF, 0x8008, 0x8FFD, 0x8FFF, 0x9000, 0xFFFF].all
      (fun w => decode w == .error (.unknownInstruction w)) = true ∧
    [0x00E0, 0x00EE, 0x1000, 0x4FFF, 0x5000, 0x5FF0, 0x6000, 0x8007, 0x8FFE].all
      (fun w => (decode w).isOk) = true := by decide
theorem witness_ShiftWordsIgnoreTheYField :
    (opField 0x8006 = 8 ∧ opField 0x80F6 = 8 ∧ xField 0x8006 = xField 0x80F6 ∧ nField 0x8006 = nField 0x80F6 ∧
      nField 0x8006 = 0x6) ∧
    (opField 0x8F0E = 8 ∧ opField 0x8FFE = 8 ∧ xField 0x8F0E = xField 0x8FFE ∧ nField 0x8F0E = nField 0x8FFE ∧
      nField 0x8F0E = 0xE) := by decide
theorem witness_EverySpellingIsTheOneSpelling :
    Spelling.instr? ⟨"SHL", [.reg 15, .reg 1]⟩ = some (.shl 15 1) ∧
      Spelling.instr? ⟨"SHL", [.reg 15]⟩ = some (.shl 15 0) ∧
      (Instr.jp 0xFFF).spelling = (Instr.jp 0xFFF).spelling := by decide

/-! ### Fetch and step -/

theorem witness_FetchReadsABigEndianWord : Fetchable { State.reset with pc := 0xFFE } := ⟨by decide, by decide⟩
/-- The clauses at their boundaries: 0xFFF is odd, 0x1000 even and too high, 0xFFE neither. -/
theorem witness_FetchFaultsOutsideItsRange :
    fetch { State.reset with pc := 0xFFF } = .error .misalignedFetch ∧
      fetch { State.reset with pc := 0x1000 } = .error .fetchOutOfBounds ∧
      fetch { State.reset with pc := 0xFFE } = .ok 0x0000 := by decide
theorem witness_StepRunsTheDecodedInstruction :
    (start 0x8436).fault = none ∧ Fetchable (start 0x8436) ∧ (Instr.shr 4 3).wellFormed = true ∧
      decodeBytes [(start 0x8436).mem.read (start 0x8436).pc.toNat,
        (start 0x8436).mem.read ((start 0x8436).pc.toNat + 1)] = .ok (.shr 4 3, []) :=
  ⟨rfl, ⟨by decide, by decide⟩, by decide, by decide⟩
theorem witness_PlacedWordIsTheNextInstruction :
    State.reset.fault = none ∧ Fetchable State.reset ∧ 0x8436 < 65536 ∧
      decodeTableWord 16 0x8436 = some (.shr 4 3) := ⟨rfl, ⟨by decide, by decide⟩, by decide, by decide⟩
theorem witness_StepFaultsInPriorityOrder_fetch :
    ({ State.reset with pc := 0xFFF } : State).fault = none ∧
      ({ State.reset with pc := 0xFFF } : State).pc.toNat % 2 = 1 ∧
      ({ State.reset with pc := 0x1000 } : State).pc.toNat % 2 = 0 ∧
      ({ State.reset with pc := 0x1000 } : State).pc.toNat > 0x0FFE := by decide
theorem witness_StepFaultsInPriorityOrder_unknown :
    (start 0x8008).fault = none ∧ Fetchable (start 0x8008) ∧ ∀ i, decode (wordAtPc (start 0x8008)) ≠ .ok i := by
  refine ⟨rfl, ⟨by decide, by decide⟩, fun i h => ?_⟩
  have hw : decode (wordAtPc (start 0x8008)) = .error (.unknownInstruction 0x8008) := by decide
  rw [hw] at h
  cases h
theorem witness_StepFaultsInPriorityOrder_stack :
    decode (wordAtPc { start 0x2FFF with sp := 15 }) = .ok (.call 0xFFF) ∧
      ({ start 0x2FFF with sp := 15 } : State).sp = 15 ∧ wordAtPc (start 0x00EE) = 0x00EE ∧
      (start 0x00EE).sp = 0 := by decide
theorem witness_UnknownInstructionNeverAdvances :
    (start 0x0022).fault = none ∧ fetch (start 0x0022) = .ok 0x0022 ∧ ∀ i, decode 0x0022 ≠ .ok i := by
  refine ⟨rfl, by decide, fun i h => ?_⟩
  have hw : decode 0x0022 = .error (.unknownInstruction 0x0022) := by decide
  rw [hw] at h
  cases h
theorem witness_FaultRecordsFitTheirTable :
    ∃ t r, step { start 0x2300 with sp := 15 } = .next t ∧ t.fault = some r := ⟨_, _, rfl, rfl⟩
theorem witness_RaisedFaultWritesOnlyTheRecord :
    ∃ t, step (start 0x00EE) = .next t ∧ t.fault ≠ none := ⟨_, rfl, by decide⟩
theorem witness_FaultedCoreTakesNoStep :
    ({ State.reset with fault := some ⟨.unknownInstruction, 0x200, some 0⟩ } : State).fault =
      some ⟨.unknownInstruction, 0x200, some 0⟩ := rfl
theorem witness_UnfaultedCoreAlwaysSteps :
    ({ start 0x2300 with sp := 15 } : State).fault = none ∧ ({ start 0x2300 with sp := 15 } : State).sp.toNat ≤ 15 := by
  decide
theorem witness_OtherInstructionsAlwaysSucceed : Instr.cls ≠ .ret ∧ ∀ nnn, Instr.cls ≠ .call nnn := by simp
/-- The conditions hold of a CALL with room, and fail of a CALL without. -/
theorem witness_StepNeedsExactlyTheStepConditions :
    StepConditions { start 0x2300 with sp := 14 } ∧ ¬StepConditions { start 0x2300 with sp := 15 } := by
  refine ⟨⟨⟨by decide, by decide⟩, .call 0x300, by decide, by decide⟩, ?_⟩
  rintro ⟨-, i, hi, hc⟩
  have hw : decode (wordAtPc { start 0x2300 with sp := 15 }) = .ok (.call 0x300) := by decide
  rw [hw] at hi
  cases hi
  exact absurd hc (by decide)

/-! ### Invariants and what a step depends on -/

theorem witness_StepKeepsTheInvariant : Inv (start 0x2300) ∧ ∃ t, step (start 0x2300) = .next t :=
  ⟨inv_start_call, _, rfl⟩
theorem witness_HostOperationsKeepTheInvariant :
    Inv (⟨start 0x2300, .running⟩ : Session).core ∧
      ∃ σ', (Session.op ⟨start 0x2300, .running⟩ .step).session? = some σ' := ⟨inv_start_call, _, rfl⟩
theorem witness_HostOperationsKeepTheInvariant_load :
    Inv (⟨start 0x2300, .constructed⟩ : Session).core ∧
      ∃ σ', (Session.op ⟨start 0x2300, .constructed⟩ (.load [0x12, 0x00])).session? = some σ' :=
  ⟨inv_start_call, _, rfl⟩
theorem witness_MemoryIsConstantFromTheFirstStep :
    (∃ t, step (start 0x6A42) = .next t) ∧ HostOp.timerTick true true ≠ .construct ∧
      ((∃ img, HostOp.timerTick true true = .load img) →
        (⟨start 0x6A42, .running⟩ : Session).phase ≠ .constructed) ∧
      ∃ σ', (Session.op ⟨start 0x6A42, .running⟩ (.timerTick true true)).session? = some σ' :=
  ⟨⟨_, rfl⟩, by decide, fun _ => by decide, _, rfl⟩
theorem witness_TimersNeverInfluenceAStep :
    (∃ t, step (start 0x6A42) = .next t) ∧ HostOp.load [0x12, 0x00] ≠ .construct ∧
      (∀ d e, HostOp.load [0x12, 0x00] ≠ .timerTick d e) ∧
      ∃ σ', (Session.fresh.op (.load [0x12, 0x00])).session? = some σ' :=
  ⟨⟨_, rfl⟩, by decide, by simp, _, rfl⟩
theorem witness_FrameBufferIsWrittenOnlyByCls :
    ∃ t, step { start 0x00E0 with fb := blankFrame.set 31 (Vector.replicate 64 1) } = .next t ∧
      t.fb ≠ ({ start 0x00E0 with fb := blankFrame.set 31 (Vector.replicate 64 1) } : State).fb := by
  refine ⟨_, rfl, fun h => ?_⟩
  have h1 := congrArg (fun f : Vector (Vector Pixel 64) 32 => f[31][63]) h
  exact absurd h1 (by decide)
/-- Two memories that agree at pc and pc + 1 and differ in the word a skip passes over (T42-12). -/
theorem witness_StepReadsOnlyTheTwoFetchedBytes :
    Memory.read [(0x200, 0x30), (0x203, 0x22)] (start 0x3000).pc.toNat =
        (start 0x3000).mem.read (start 0x3000).pc.toNat ∧
      Memory.read [(0x200, 0x30), (0x203, 0x22)] ((start 0x3000).pc.toNat + 1) =
        (start 0x3000).mem.read ((start 0x3000).pc.toNat + 1) := by decide
theorem witness_OnlyCallWritesTheStack :
    ∃ t, step { start 0x2300 with sp := 14 } = .next t ∧
      t.stack[(15 : Fin 16)] ≠ ({ start 0x2300 with sp := 14 } : State).stack[(15 : Fin 16)] :=
  ⟨_, rfl, by decide⟩
theorem witness_OnlyFiveInstructionsWriteTheFlag :
    ∃ t, exec (.shr 4 3) (State.reset.setReg 4 0x07) = .next t ∧ t.reg vf ≠ (State.reset.setReg 4 0x07).reg vf :=
  ⟨_, rfl, by decide⟩
theorem witness_OnlyFiveInstructionsWriteTheFlag_destination :
    ∃ t, exec (.ldImm vf 0xFF) State.reset = .next t ∧ t.reg vf ≠ State.reset.reg vf := ⟨_, rfl, by decide⟩
theorem witness_PcFollowsTheActionOfEachInstruction :
    ∃ t, exec .ret { State.reset with sp := 15 } = .next t ∧
      ({ State.reset with sp := 15 } : State).fault = none ∧ t.fault = none := ⟨_, rfl, rfl, rfl⟩
theorem witness_FixedPointIsTheJumpToItself :
    FixedPoint (start 0x1200) ∧ (start 0x1200).fault = none ∧ Fetchable (start 0x1200) ∧
      decode (wordAtPc (start 0x1200)) = .ok (.jp 0x200) ∧ (0x200 : Addr12).toNat = (start 0x1200).pc.toNat :=
  ⟨rfl, rfl, ⟨by decide, by decide⟩, by decide, by decide⟩

theorem witness_FixedPointRunsForever : FixedPoint (start 0x1200) := rfl
theorem witness_EndedSessionsTakeNoStep :
    Session.fresh.phase ≠ .stopped ∧ (⟨State.reset, .stopped⟩ : Session).phase = .stopped ∧
      HostOp.step ≠ .construct := by decide
/-- Each way a run ends, a Stop included: of a run not ended, of one at its fixed point, of one that faulted. -/
theorem witness_RunEndsInOneWay :
    EndsBy ⟨start 0x6A42, .stopped⟩ .stopped ∧ EndsBy ⟨start 0x1200, .stopped⟩ .fixedPoint ∧
      EndsBy ⟨{ State.reset with fault := some ⟨.unknownInstruction, 0x200, some 0x0000⟩ }, .stopped⟩ .faulted :=
  ⟨⟨rfl, rfl, fun h => absurd (congrArg (fun r => match r with | .next t => t.pc | _ => 0) h) (by decide)⟩,
    rfl, by simp [EndsBy]⟩

/-! ### Instructions -/

theorem witness_ClsClearsEveryPixel : ∀ row col, State.reset.pixel row col = 0 := by
  intro row col
  simp [State.reset, State.pixel, blankFrame]
theorem witness_RetPopsTheReturnAddress :
    ({ State.reset with sp := 15 } : State).sp.toNat < 16 ∧ 0 < ({ State.reset with sp := 1 } : State).sp.toNat := by
  decide
theorem witness_RetOnAnEmptyStackUnderflows : State.reset.sp = 0 := rfl
theorem witness_JpMovesPcToItsAddress : (0x200 : Addr12).toNat = State.reset.pc.toNat := by decide
theorem witness_CallPushesTheReturnAddress : ({ State.reset with sp := 14 } : State).sp.toNat + 1 < 16 := by decide
theorem witness_CallOnAFullStackOverflows : ({ State.reset with sp := 15 } : State).sp = 15 := rfl
/-- The first clause's hypothesis, and the second's: an execution that answers a fault. -/
theorem witness_IllegalStackPointerStops :
    ({ State.reset with sp := 16 } : State).sp.toNat > 15 ∧
      exec .ret { State.reset with sp := 16 } = .fault (.stackPointerOutOfRange 16) ∧
      exec (.call 0) { State.reset with sp := 255 } = .fault (.stackPointerOutOfRange 255) :=
  ⟨by decide, rfl, rfl⟩
theorem witness_CallThenRetReturnsPastTheCall : ({ State.reset with sp := 14 } : State).sp.toNat ≤ 14 := by decide
theorem witness_SeRegSkipsOnEqual : (15 : RegNum) = 15 := rfl
/-- x ≠ VF, the premise of the result clauses of AddReg, SubReg, Shr, SubnReg, Shl and of the x = y corners. -/
theorem witness_register_other_than_vf : (14 : RegNum) ≠ vf ∧ (0 : RegNum) ≠ vf := by decide

/-! ### Host operations -/

theorem witness_LoadPlacesTheImageAndNothingElse :
    (List.replicate 0xE00 (0 : Byte)).length ≤ 0xE00 ∧ (List.replicate 0xE01 (0 : Byte)).length > 0xE00 := by
  rw [List.length_replicate, List.length_replicate]
  decide
theorem witness_LoadIsRefusedAfterTheFirstStep :
    (∃ σ', (Session.op ⟨start 0x1200, .constructed⟩ .step).session? = some σ') ∧ HostOp.stop ≠ .construct ∧
      (⟨start 0x1200, .running⟩ : Session).phase ≠ .constructed ∧
      (⟨start 0x1200, .stopped⟩ : Session).phase ≠ .constructed ∧
      ∃ σ', (Session.op ⟨start 0x1200, .running⟩ .stop).session? = some σ' :=
  ⟨⟨_, rfl⟩, by decide, by decide, by decide, _, rfl⟩
theorem witness_ReadsChangeNothing : Session.fresh.phase ≠ .stopped := by decide

end Sys2Proof.Tests
end

/-! ## Changes of the state that no step sees (10_state.md)

A step that commutes with a change of the state can neither read nor write what the change writes. The argument
is made once, for any change that commutes with the state's operations; the timers (R22) are one such change. -/

namespace Sys2Proof.Proofs

open Sys2Proof.Machine Sys2Proof.Safety

/-- The change `f` leaves what the state's operations read, and may be made before or after what they write. -/
structure CommutesWithOps (f : State → State) : Prop where
  pc : ∀ s, (f s).pc = s.pc
  sp : ∀ s, (f s).sp = s.sp
  reg : ∀ s x, (f s).reg x = s.reg x
  setReg : ∀ s x b, (f s).setReg x b = f (s.setReg x b)
  clearFrame : ∀ s, (f s).clearFrame = f s.clearFrame
  push : ∀ s a, (f s).push a = (s.push a).map f
  pop : ∀ s, (f s).pop = s.pop.map (Prod.map id f)
  act : ∀ s a, (f s).act a = f (s.act a)
  raise : ∀ c w s, raise c w (f s) = mapNext f (raise c w s)

namespace CommutesWithOps

variable {f : State → State} (hf : CommutesWithOps f)
include hf

theorem setRegThenFlag (s : State) (x : RegNum) (b flag : Byte) :
    (f s).setRegThenFlag x b flag = f (s.setRegThenFlag x b flag) := by
  simp only [State.setRegThenFlag, hf.setReg]

theorem complete (s : State) (a : Action) : complete (f s) a = mapNext f (complete s a) := by
  simp only [Machine.complete, hf.act, mapNext]

theorem execRet (s : State) : execRet (f s) = mapNext f (execRet s) := by
  simp only [Machine.execRet, hf.sp, hf.raise, hf.pop]
  split
  · rfl
  · cases s.pop with
    | none => rfl
    | some p => exact hf.complete p.2 (.jump p.1)

theorem execCall (nnn : Addr12) (s : State) : execCall nnn (f s) = mapNext f (execCall nnn s) := by
  simp only [Machine.execCall, hf.sp, hf.raise, returnAddress, hf.pc, hf.push]
  split
  · rfl
  · cases s.push (s.pc + 2) with
    | none => rfl
    | some s' => exact hf.complete s' (.jump (jumpTarget nnn))

/-- Executing any instruction commutes with the change. -/
theorem exec (i : Instr) (s : State) : exec i (f s) = mapNext f (exec i s) := by
  cases i with
  | ret => exact hf.execRet s
  | call nnn => exact hf.execCall nnn s
  | cls => simp only [Machine.exec, execCls, hf.clearFrame, hf.complete]
  | jp nnn => simp only [Machine.exec, execJp, hf.complete]
  | seImm x kk => simp only [Machine.exec, execSeImm, hf.reg, hf.complete]
  | sneImm x kk => simp only [Machine.exec, execSneImm, hf.reg, hf.complete]
  | seReg x y => simp only [Machine.exec, execSeReg, hf.reg, hf.complete]
  | ldImm x kk => simp only [Machine.exec, execLdImm, hf.setReg, hf.complete]
  | addImm x kk => simp only [Machine.exec, execAddImm, hf.reg, hf.setReg, hf.complete]
  | ldReg x y => simp only [Machine.exec, execLdReg, hf.reg, hf.setReg, hf.complete]
  | orReg x y => simp only [Machine.exec, execOrReg, hf.reg, hf.setReg, hf.complete]
  | andReg x y => simp only [Machine.exec, execAndReg, hf.reg, hf.setReg, hf.complete]
  | xorReg x y => simp only [Machine.exec, execXorReg, hf.reg, hf.setReg, hf.complete]
  | addReg x y => simp only [Machine.exec, execAddReg, hf.reg, hf.setRegThenFlag, hf.complete]
  | subReg x y => simp only [Machine.exec, execSubReg, hf.reg, hf.setRegThenFlag, hf.complete]
  | shr x y => simp only [Machine.exec, execShr, hf.reg, hf.setRegThenFlag, hf.complete]
  | subnReg x y => simp only [Machine.exec, execSubnReg, hf.reg, hf.setRegThenFlag, hf.complete]
  | shl x y => simp only [Machine.exec, execShl, hf.reg, hf.setRegThenFlag, hf.complete]

/-- A step commutes with the change wherever the change leaves the fault status and the fetched word. -/
theorem step {s : State} (hfault : (f s).fault = s.fault) (hfetch : fetch (f s) = fetch s) :
    step (f s) = mapNext f (step s) := by
  unfold Machine.step
  cases hs : s.fault with
  | some r => rw [cycle_of_faulted hs, cycle_of_faulted (hfault.trans hs)]; rfl
  | none =>
    have hs' := hfault.trans hs
    cases hw : fetch s with
    | error c =>
      rw [cycle_of_fetch_error hs hw, cycle_of_fetch_error hs' (hfetch.trans hw), hf.raise]
    | ok w =>
      have hw' := hfetch.trans hw
      cases hd : decode w with
      | error e => rw [cycle_of_unknown hs hw hd, cycle_of_unknown hs' hw' hd, hf.raise]
      | ok i => rw [cycle_of_decoded hs hw hd, cycle_of_decoded hs' hw' hd, hf.exec]

end CommutesWithOps

/-- What a step that commutes with a change answers is fixed by the change wherever the state is: what the change
writes, the step does not. -/
theorem next_fixed_of_mapNext {f : State → State} {s t : State} (hcomm : step (f s) = mapNext f (step s))
    (hs : f s = s) (h : step s = .next t) : f t = t := by
  rw [hs, h] at hcomm
  exact (Host.Outcome.next.inj hcomm).symm

/-! ### The timers (R22) -/

/-- The state with other timer values. -/
def withTimers (d e : Byte) (s : State) : State := { s with dt := d, st := e }

theorem withTimers_commutesWithOps (d e : Byte) : CommutesWithOps (withTimers d e) where
  pc _ := rfl
  sp _ := rfl
  reg _ _ := rfl
  setReg _ _ _ := rfl
  clearFrame _ := rfl
  push s a := by
    by_cases h : s.sp.toNat + 1 < 16
    · rw [State.push_of_room a h, State.push_of_room (s := withTimers d e s) a h]; rfl
    · simp [State.push, withTimers, h]
  pop s := by
    by_cases h : s.sp.toNat < 16
    · rw [State.pop_of_slot h, State.pop_of_slot (s := withTimers d e s) h]; rfl
    · simp [State.pop, withTimers, h]
  act _ _ := rfl
  raise _ _ _ := rfl

theorem step_withTimers (d e : Byte) (s : State) :
    step (withTimers d e s) = mapNext (withTimers d e) (step s) :=
  (withTimers_commutesWithOps d e).step rfl rfl

theorem step_keeps_timers {s t : State} (h : step s = .next t) : t.dt = s.dt ∧ t.st = s.st := by
  have ht : withTimers s.dt s.st t = t := next_fixed_of_mapNext (step_withTimers s.dt s.st s) rfl h
  rw [← ht]
  exact ⟨rfl, rfl⟩

theorem hostOp_keeps_timers {σ σ' : Session} {op : HostOp} (hc : op ≠ .construct)
    (ht : ∀ d e, op ≠ .timerTick d e) (h : (σ.op op).session? = some σ') :
    σ'.core.dt = σ.core.dt ∧ σ'.core.st = σ.core.st := by
  rcases Session.op_leaves_cases h with ⟨rfl, -⟩ | ⟨img, c, -, -, hload, rfl⟩ | ⟨c, -, -, -, hstep, rfl⟩ |
    ⟨d, e, rfl, -⟩ | ⟨-, -, rfl⟩ | ⟨-, -, rfl⟩
  · exact absurd rfl hc
  · obtain ⟨-, rfl⟩ := State.load_eq_some hload
    exact ⟨rfl, rfl⟩
  · exact step_keeps_timers hstep
  · exact absurd rfl (ht d e)
  · exact ⟨rfl, rfl⟩
  · exact ⟨rfl, rfl⟩

/-- Settles O25: a step commutes with every change of the timers, so it neither reads nor writes them, and of the
host operations only a tick and a construction do. -/
theorem timersNeverInfluenceAStep : Obligations.TimersNeverInfluenceAStep :=
  ⟨fun s d e => step_withTimers d e s, fun _ _ => step_keeps_timers, fun _ _ _ => hostOp_keeps_timers⟩

end Sys2Proof.Proofs

/-! ## The fetched word (20_memory.md) -/

namespace Sys2Proof.Proofs

open Sys2Proof.Machine Sys2Proof.Safety

theorem toNat_wordOfBytes (hi lo : Byte) : (wordOfBytes hi lo).toNat = 256 * hi.toNat + lo.toNat := by
  calc (wordOfBytes hi lo).toNat
      = hi.toNat <<< 8 ||| lo.toNat := BitVec.toNat_append hi lo
    _ = hi.toNat <<< 8 + lo.toNat := (Nat.shiftLeft_add_eq_or_of_lt lo.isLt hi.toNat).symm
    _ = 256 * hi.toNat + lo.toNat := by rw [Nat.shiftLeft_eq, Nat.mul_comm]

/-- Settles O10: a fetch in range answers the word of the two bytes at pc, whose halves and value are those bytes'. -/
theorem fetchReadsABigEndianWord : Obligations.FetchReadsABigEndianWord := fun s hs =>
  ⟨wordAtPc s, fetch_of_fetchable hs, highByte_wordOfBytes _ _, lowByte_wordOfBytes _ _, toNat_wordOfBytes _ _⟩

end Sys2Proof.Proofs

/-! ## The display instruction (40_display.md) -/

namespace Sys2Proof.Proofs

open Sys2Proof.Machine

/-! ### A word that decodes is the word of its instruction (30_encoding.md R44, R45) -/

theorem encode_of_decodeAlu {w : Word} {i : Instr} (hop : opField w = 0x8) (h : decodeAlu w = .ok i) :
    encode i = w := by
  have hw : ∀ n, nField w = n → packXyn 0x8 (xField w) (yField w) n = w := by
    rintro n rfl
    rw [← hop, packXyn_fields]
  unfold decodeAlu at h
  split_ifs at h <;> cases h <;> exact hw _ ‹_›

theorem encode_of_decode {w : Word} {i : Instr} (h : decode w = .ok i) : encode i = w := by
  have hnnn : ∀ op, opField w = op → packNnn op (nnnField w) = w := by
    rintro op rfl
    exact packNnn_fields w
  have hxkk : ∀ op, opField w = op → packXkk op (xField w) (kkField w) = w := by
    rintro op rfl
    exact packXkk_fields w
  unfold decode at h
  split_ifs at h with hcls hret hjp hcall hse hsne hseReg hld hadd halu
  · cases h; exact hcls.symm
  · cases h; exact hret.symm
  · cases h; exact hnnn _ hjp
  · cases h; exact hnnn _ hcall
  · cases h; exact hxkk _ hse
  · cases h; exact hxkk _ hsne
  · cases h
    obtain ⟨hop, hn⟩ := hseReg
    calc packXyn 0x5 (xField w) (yField w) 0x0
        = packXyn (opField w) (xField w) (yField w) (nField w) := by rw [hop, hn]
      _ = w := packXyn_fields w
  · cases h; exact hxkk _ hld
  · cases h; exact hxkk _ hadd
  · exact encode_of_decodeAlu halu h

theorem decode_eq_cls_iff (w : Word) : decode w = .ok .cls ↔ w = 0x00E0#16 := by
  constructor
  · exact fun h => (encode_of_decode h).symm
  · rintro rfl
    decide

/-! ### CLS (R53) -/

theorem fb_eq_blankFrame_iff {s : State} : s.fb = blankFrame ↔ ∀ row col, s.pixel row col = 0 := by
  constructor
  · intro h row col
    simp [State.pixel, h, blankFrame]
  · intro h
    ext row hrow col hcol : 2
    simpa [blankFrame, State.pixel] using h ⟨row, hrow⟩ ⟨col, hcol⟩

theorem exec_cls (s : State) : exec .cls s = .next (s.clearFrame.act .next) := rfl

/-- Settles O35: CLS answers the state with the blank frame and pc moved on; the frame was that already where every
pixel was 0. -/
theorem clsClearsEveryPixel : Obligations.ClsClearsEveryPixel :=
  ⟨decode_eq_cls_iff, fun s => ⟨s.clearFrame.act .next, exec_cls s, s.pixel_clearFrame, rfl,
    fun _ => rfl, fun _ => rfl, rfl, rfl, rfl, rfl, rfl, rfl, fun h => (fb_eq_blankFrame_iff.2 h).symm⟩⟩

end Sys2Proof.Proofs

/-! ## Control flow (41_flow.md) -/

namespace Sys2Proof.Proofs

open Sys2Proof.Machine Sys2Proof.Safety

/-! ### JP (R55) -/

theorem decode_packNnn_jp (nnn : Addr12) : decode (packNnn 0x1 nnn) = .ok (.jp nnn) := by
  have hop : opField (packNnn 0x1 nnn) = 0x1 := opField_packNnn 0x1 nnn
  rw [decode_of_opField (by rw [hop]; decide), if_pos hop, nnnField_packNnn]

theorem decode_eq_jp_iff (nnn : Addr12) (w : Word) : decode w = .ok (.jp nnn) ↔ w = 0x1#4 ++ nnn := by
  constructor
  · exact fun h => (encode_of_decode h).symm
  · rintro rfl
    exact decode_packNnn_jp nnn

theorem exec_jp (nnn : Addr12) (s : State) : exec (.jp nnn) s = .next (s.act (.jump (jumpTarget nnn))) := rfl

/-- A jump to the address in pc is a fixed point of the action. -/
theorem act_jump_pc (s : State) : s.act (.jump s.pc) = s := rfl

theorem jumpTarget_eq_of_toNat_eq {nnn : Addr12} {a : Addr} (h : nnn.toNat = a.toNat) : jumpTarget nnn = a :=
  BitVec.eq_of_toNat_eq ((jumpTarget_toNat nnn).trans h)

/-- Settles O38: JP answers the state with its zero-extended operand in pc, which is the state itself where pc held
that address already. -/
theorem jpMovesPcToItsAddress : Obligations.JpMovesPcToItsAddress := by
  refine ⟨decode_eq_jp_iff, fun nnn s => ⟨_, exec_jp nnn s, jumpTarget_toNat nnn, onlyMovedPc_of_act s _, ?_⟩⟩
  intro hself
  rw [jumpTarget_eq_of_toNat_eq hself, act_jump_pc]

end Sys2Proof.Proofs

/-! ## Conditional skips (42_skip.md)

The three skips differ in their word and in the condition they test. What the condition makes of pc is said once,
for any condition. -/

namespace Sys2Proof.Proofs

open Sys2Proof.Machine Sys2Proof.Safety

/-! ### The skips' words (30_encoding.md R44, R45) -/

/-- Where the word of an instruction decodes to it, no other word does. -/
theorem decode_eq_ok_iff_of_decode_encode {i : Instr} (h : decode (encode i) = .ok i) (w : Word) :
    decode w = .ok i ↔ w = encode i := by
  constructor
  · exact fun hw => (encode_of_decode hw).symm
  · rintro rfl
    exact h

theorem decode_encode_seImm (x : RegNum) (kk : Byte) : decode (encode (.seImm x kk)) = .ok (.seImm x kk) := by
  have hop : opField (packXkk 0x3 x kk) ≠ 0 := by rw [opField_packXkk]; decide
  rw [encode, decode_of_opField hop]
  simp

theorem decode_encode_sneImm (x : RegNum) (kk : Byte) : decode (encode (.sneImm x kk)) = .ok (.sneImm x kk) := by
  have hop : opField (packXkk 0x4 x kk) ≠ 0 := by rw [opField_packXkk]; decide
  rw [encode, decode_of_opField hop]
  simp

theorem decode_encode_seReg (x y : RegNum) : decode (encode (.seReg x y)) = .ok (.seReg x y) := by
  have hop : opField (packXyn 0x5 x y 0x0) ≠ 0 := by rw [opField_packXyn]; decide
  rw [encode, decode_of_opField hop]
  simp

/-! ### What a skip does (R57 to R59) -/

theorem exec_seImm (x : RegNum) (kk : Byte) (s : State) :
    exec (.seImm x kk) s = .next (s.act (skipIf (s.reg x == kk))) := rfl

theorem exec_sneImm (x : RegNum) (kk : Byte) (s : State) :
    exec (.sneImm x kk) s = .next (s.act (skipIf (s.reg x != kk))) := rfl

theorem exec_seReg (x y : RegNum) (s : State) :
    exec (.seReg x y) s = .next (s.act (skipIf (s.reg x == s.reg y))) := rfl

/-- A skip on the test `c` of the condition `p` moves pc by 4 where `p` holds and by 2 elsewhere, and changes nothing
else. -/
theorem onlyMovedPc_of_skipIf {c : Bool} {p : Prop} [Decidable p] (hc : c = true ↔ p) (s : State) :
    OnlyMovedPc s (s.act (skipIf c)) (if p then s.pc + 4 else s.pc + 2) := by
  have hpc : (skipIf c).target s.pc = if p then s.pc + 4 else s.pc + 2 := by
    simp only [target_skipIf, hc]
  exact hpc ▸ onlyMovedPc_of_act s (skipIf c)

/-- pc tells whether the skip was taken: 2 and 4 differ modulo 2 ^ 16. -/
theorem act_skipIf_pc_eq_iff (s : State) (c : Bool) : (s.act (skipIf c)).pc = s.pc + 4 ↔ c = true := by
  cases c <;> simp [skipIf]

/-- Settles O43: SE Vx, kk is the skip on V[x] = kk. -/
theorem seImmSkipsOnEqual : Obligations.SeImmSkipsOnEqual :=
  ⟨fun x kk => decode_eq_ok_iff_of_decode_encode (decode_encode_seImm x kk),
    fun x kk s => ⟨_, exec_seImm x kk s, onlyMovedPc_of_skipIf beq_iff_eq s⟩⟩

/-- Settles O44: SNE Vx, kk is the skip on V[x] ≠ kk, the negation of the test of SE Vx, kk. -/
theorem sneImmSkipsOnDifferent : Obligations.SneImmSkipsOnDifferent := by
  refine ⟨fun x kk => decode_eq_ok_iff_of_decode_encode (decode_encode_sneImm x kk), fun x kk s =>
    ⟨_, exec_sneImm x kk s, onlyMovedPc_of_skipIf bne_iff_ne s, _, exec_seImm x kk s, ?_⟩⟩
  rw [act_skipIf_pc_eq_iff, act_skipIf_pc_eq_iff, bne_iff_ne, beq_iff_eq]

/-- Settles O45: SE Vx, Vy is the skip on V[x] = V[y], which x = y makes true. -/
theorem seRegSkipsOnEqual : Obligations.SeRegSkipsOnEqual := by
  refine ⟨fun x y => decode_eq_ok_iff_of_decode_encode (decode_encode_seReg x y), fun x y s =>
    ⟨_, exec_seReg x y s, onlyMovedPc_of_skipIf beq_iff_eq s, ?_⟩⟩
  rintro rfl
  exact (act_skipIf_pc_eq_iff s _).2 BEq.rfl

end Sys2Proof.Proofs

/-! ## Immediate loads and adds (43_immediate.md)

Both write one register and go on: what they leave unchanged is `wroteReg_of_setReg`. -/

namespace Sys2Proof.Proofs

open Sys2Proof.Machine Sys2Proof.Safety

theorem decode_encode_ldImm (x : RegNum) (kk : Byte) : decode (encode (.ldImm x kk)) = .ok (.ldImm x kk) := by
  have hop : opField (packXkk 0x6 x kk) ≠ 0 := by rw [opField_packXkk]; decide
  rw [encode, decode_of_opField hop]
  simp

theorem decode_encode_addImm (x : RegNum) (kk : Byte) : decode (encode (.addImm x kk)) = .ok (.addImm x kk) := by
  have hop : opField (packXkk 0x7 x kk) ≠ 0 := by rw [opField_packXkk]; decide
  rw [encode, decode_of_opField hop]
  simp

theorem exec_ldImm (x : RegNum) (kk : Byte) (s : State) :
    exec (.ldImm x kk) s = .next ((s.setReg x kk).act .next) := rfl

theorem exec_addImm (x : RegNum) (kk : Byte) (s : State) :
    exec (.addImm x kk) s = .next ((s.setReg x (aluAdd (s.reg x) kk)).act .next) := rfl

/-- Settles O46: LD Vx, kk writes kk to V[x] and goes on. -/
theorem ldImmLoadsTheByte : Obligations.LdImmLoadsTheByte :=
  ⟨fun x kk => decode_eq_ok_iff_of_decode_encode (decode_encode_ldImm x kk),
    fun x kk s => ⟨_, exec_ldImm x kk s, wroteReg_of_setReg s x kk⟩⟩

/-- Settles O47: ADD Vx, kk writes the sum modulo 256 (`aluAdd_toNat`) to V[x] and goes on; V[x] is the only register
written, so no flag is. -/
theorem addImmWrapsWithoutAFlag : Obligations.AddImmWrapsWithoutAFlag := by
  refine ⟨fun x kk => decode_eq_ok_iff_of_decode_encode (decode_encode_addImm x kk), fun x kk s => ?_⟩
  have hwrote := wroteReg_of_setReg s x (aluAdd (s.reg x) kk)
  refine ⟨_, exec_addImm x kk s, ?_, hwrote.dest.symm ▸ hwrote⟩
  rw [hwrote.dest, aluAdd_toNat]

end Sys2Proof.Proofs

/-! ## Group 8: register copy, sums, differences and shifts (44_alu.md)

The copy writes one register (`wroteReg_of_setReg`). The five others write a result and then a flag
(`wroteRegAndFlag_of_setRegThenFlag`), so they differ only in the values of the two. -/

namespace Sys2Proof.Proofs

open Sys2Proof.Machine Sys2Proof.Safety

/-! ### The words of group 8 (30_encoding.md R44, R45) -/

/-- In group 8 the n field decides. -/
theorem decode_packXyn_alu (x y : RegNum) (n : Nibble) :
    decode (packXyn 0x8 x y n) = decodeAlu (packXyn 0x8 x y n) := by
  have hop : opField (packXyn 0x8 x y n) ≠ 0 := by rw [opField_packXyn]; decide
  rw [decode_of_opField hop]
  simp

theorem decode_encode_ldReg (x y : RegNum) : decode (encode (.ldReg x y)) = .ok (.ldReg x y) := by
  rw [encode, decode_packXyn_alu]
  simp [decodeAlu]

theorem decode_encode_addReg (x y : RegNum) : decode (encode (.addReg x y)) = .ok (.addReg x y) := by
  rw [encode, decode_packXyn_alu]
  simp [decodeAlu]

theorem decode_encode_subReg (x y : RegNum) : decode (encode (.subReg x y)) = .ok (.subReg x y) := by
  rw [encode, decode_packXyn_alu]
  simp [decodeAlu]

theorem decode_encode_shr (x y : RegNum) : decode (encode (.shr x y)) = .ok (.shr x y) := by
  rw [encode, decode_packXyn_alu]
  simp [decodeAlu]

theorem decode_encode_subnReg (x y : RegNum) : decode (encode (.subnReg x y)) = .ok (.subnReg x y) := by
  rw [encode, decode_packXyn_alu]
  simp [decodeAlu]

theorem decode_encode_shl (x y : RegNum) : decode (encode (.shl x y)) = .ok (.shl x y) := by
  rw [encode, decode_packXyn_alu]
  simp [decodeAlu]

/-! ### What they do (R63, R67 to R71) -/

theorem exec_ldReg (x y : RegNum) (s : State) :
    exec (.ldReg x y) s = .next ((s.setReg x (s.reg y)).act .next) := rfl

theorem exec_addReg (x y : RegNum) (s : State) : exec (.addReg x y) s =
    .next ((s.setRegThenFlag x (aluAdd (s.reg x) (s.reg y)) (carryFlag (s.reg x) (s.reg y))).act .next) := rfl

theorem exec_subReg (x y : RegNum) (s : State) : exec (.subReg x y) s =
    .next ((s.setRegThenFlag x (aluSub (s.reg x) (s.reg y)) (borrowFlag (s.reg x) (s.reg y))).act .next) := rfl

theorem exec_shr (x y : RegNum) (s : State) : exec (.shr x y) s =
    .next ((s.setRegThenFlag x (aluShr (s.reg x)) (lowBitFlag (s.reg x))).act .next) := rfl

theorem exec_subnReg (x y : RegNum) (s : State) : exec (.subnReg x y) s =
    .next ((s.setRegThenFlag x (aluSub (s.reg y) (s.reg x)) (borrowFlag (s.reg y) (s.reg x))).act .next) := rfl

theorem exec_shl (x y : RegNum) (s : State) : exec (.shl x y) s =
    .next ((s.setRegThenFlag x (aluShl (s.reg x)) (highBitFlag (s.reg x))).act .next) := rfl

/-- The difference modulo 256 as one of integers: adding 256 before the subtraction (R62) is not seen. -/
theorem aluSub_toNat_intCast (a b : Byte) : ((aluSub a b).toNat : Int) = (a.toNat - b.toNat : Int) % 256 := by
  have hb : b.toNat < 256 := b.isLt
  rw [aluSub_toNat]
  omega

/-- The frame of a result and a flag, the result named by the register that holds it. For x = 15 that register
holds the flag, and the frame says nothing of the result. -/
theorem wroteRegAndFlag_ownResult {s t : State} {x : RegNum} {b f : Byte} (h : WroteRegAndFlag s t x b f) :
    WroteRegAndFlag s t x (t.reg x) f :=
  { h with dest := fun _ => rfl }

/-- Writing a difference and its borrow and going on: the two subtractions differ only in which operand is `a`. -/
theorem wroteDifference_of_setRegThenFlag (s : State) (x : RegNum) (a b : Byte) :
    let t := (s.setRegThenFlag x (aluSub a b) (borrowFlag a b)).act .next
    WroteRegAndFlag s t x (t.reg x) (if a.toNat < b.toNat then 1 else 0) ∧
      (x ≠ vf → ((t.reg x).toNat : Int) = (a.toNat - b.toNat : Int) % 256) := by
  have hwrote := wroteRegAndFlag_of_setRegThenFlag s x (aluSub a b) (borrowFlag a b)
  refine ⟨?_, fun hx => ?_⟩
  · exact borrowFlag_eq a b ▸ wroteRegAndFlag_ownResult hwrote
  · rw [hwrote.dest hx, aluSub_toNat_intCast]

/-- Settles O48: LD Vx, Vy writes the old V[y] to V[x] and goes on. -/
theorem ldRegCopiesTheRegister : Obligations.LdRegCopiesTheRegister :=
  ⟨fun x y => decode_eq_ok_iff_of_decode_encode (decode_encode_ldReg x y),
    fun x y s => ⟨_, exec_ldReg x y s, wroteReg_of_setReg s x (s.reg y)⟩⟩

/-- Settles O50: the result is the sum modulo 256 (`aluAdd_toNat`), the flag the carry (`carryFlag_eq`). -/
theorem addRegWrapsAndCarries : Obligations.AddRegWrapsAndCarries := by
  refine ⟨fun x y => decode_eq_ok_iff_of_decode_encode (decode_encode_addReg x y), fun x y s => ?_⟩
  have hwrote := wroteRegAndFlag_of_setRegThenFlag s x (aluAdd (s.reg x) (s.reg y)) (carryFlag (s.reg x) (s.reg y))
  refine ⟨_, exec_addReg x y s, ?_, fun hx => ?_⟩
  · exact carryFlag_eq (s.reg x) (s.reg y) ▸ wroteRegAndFlag_ownResult hwrote
  · rw [hwrote.dest hx, aluAdd_toNat]

/-- Settles O51: the difference V[x] - V[y] and its borrow. -/
theorem subRegWrapsAndBorrows : Obligations.SubRegWrapsAndBorrows :=
  ⟨fun x y => decode_eq_ok_iff_of_decode_encode (decode_encode_subReg x y),
    fun x y s => ⟨_, exec_subReg x y s, wroteDifference_of_setRegThenFlag s x (s.reg x) (s.reg y)⟩⟩

/-- Settles O52: the result is the half (`aluShr_toNat`), the flag bit 0 (`lowBitFlag_toNat`); neither reads V[y]. -/
theorem shrHalvesAndKeepsTheLowBit : Obligations.ShrHalvesAndKeepsTheLowBit := by
  refine ⟨fun x y => decode_eq_ok_iff_of_decode_encode (decode_encode_shr x y), fun x y s => ?_⟩
  have hwrote := wroteRegAndFlag_of_setRegThenFlag s x (aluShr (s.reg x)) (lowBitFlag (s.reg x))
  refine ⟨_, exec_shr x y s, ?_, ?_, fun hx => ?_⟩
  · exact hwrote.flag.symm ▸ wroteRegAndFlag_ownResult hwrote
  · rw [hwrote.flag, lowBitFlag_toNat]
  · rw [hwrote.dest hx, aluShr_toNat]

/-- Settles O53: the difference V[y] - V[x] and its borrow. -/
theorem subnRegWrapsAndBorrows : Obligations.SubnRegWrapsAndBorrows :=
  ⟨fun x y => decode_eq_ok_iff_of_decode_encode (decode_encode_subnReg x y),
    fun x y s => ⟨_, exec_subnReg x y s, wroteDifference_of_setRegThenFlag s x (s.reg y) (s.reg x)⟩⟩

/-- Settles O54: the result is the double modulo 256 (`aluShl_toNat`), the flag bit 7 (`highBitFlag_toNat`); neither
reads V[y]. -/
theorem shlDoublesAndKeepsTheHighBit : Obligations.ShlDoublesAndKeepsTheHighBit := by
  refine ⟨fun x y => decode_eq_ok_iff_of_decode_encode (decode_encode_shl x y), fun x y s => ?_⟩
  have hwrote := wroteRegAndFlag_of_setRegThenFlag s x (aluShl (s.reg x)) (highBitFlag (s.reg x))
  refine ⟨_, exec_shl x y s, ?_, ?_, fun hx => ?_⟩
  · exact hwrote.flag.symm ▸ wroteRegAndFlag_ownResult hwrote
  · rw [hwrote.flag, highBitFlag_toNat]
  · rw [hwrote.dest hx, aluShl_toNat]

end Sys2Proof.Proofs

/-! ## Exceptions (60_exceptions.md)

Only RET and CALL can raise a fault of their own; the 16 others all end in the one way said here. -/

namespace Sys2Proof.Proofs

open Sys2Proof.Machine

/-- The instructions other than RET and CALL end in `complete`, after writes that are not to the fault status: none,
the frame buffer, one register, or a result and a flag. -/
theorem exec_eq_complete_of_ne_ret_call {i : Instr} (hret : i ≠ .ret) (hcall : ∀ nnn, i ≠ .call nnn) (s : State) :
    ∃ u a, exec i s = complete u a ∧ u.fault = s.fault := by
  cases i with
  | ret => exact absurd rfl hret
  | call nnn => exact absurd rfl (hcall nnn)
  | jp | seImm | sneImm | seReg => exact ⟨s, _, rfl, rfl⟩
  | cls => exact ⟨s.clearFrame, _, rfl, s.clearFrame_fault⟩
  | ldImm | addImm | ldReg | orReg | andReg | xorReg => exact ⟨s.setReg _ _, _, rfl, s.setReg_fault _ _⟩
  | addReg | subReg | shr | subnReg | shl =>
    exact ⟨s.setRegThenFlag _ _ _, _, rfl, s.setRegThenFlag_fault _ _ _⟩

/-- Settles O20: such an execution completes, and the control-flow action leaves the fault status too. -/
theorem otherInstructionsAlwaysSucceed : Obligations.OtherInstructionsAlwaysSucceed := by
  intro i s hret hcall
  obtain ⟨u, a, hexec, hfault⟩ := exec_eq_complete_of_ne_ret_call hret hcall s
  exact ⟨u.act a, hexec.trans (complete_eq_next.2 rfl), (u.act_fault a).trans hfault⟩

end Sys2Proof.Proofs

/-! ## Construction (70_reset_and_hazards.md) -/

namespace Sys2Proof.Proofs

open Sys2Proof.Machine

/-! ### What an address no pair lists reads as (10_state.md R26, 20_memory.md R30) -/

theorem unlisted_of_lt {a : Nat} (h : a < 80) : Memory.unlisted a = Config.font[a] := dif_pos h

theorem unlisted_of_le {a : Nat} (h : 80 ≤ a) : Memory.unlisted a = 0 := dif_neg (Nat.not_lt.2 h)

/-! ### The core just constructed (R90) -/

/-- Construction lists no pair. -/
theorem reset_read (a : Nat) : State.reset.mem.read a = Memory.unlisted a :=
  Memory.read_unlisted_of_above (List.forall_mem_nil _)

theorem reset_reg (x : RegNum) : State.reset.reg x = 0 := Vector.getElem_replicate x.isLt

theorem reset_stack (j : Fin 16) : State.reset.stack[j] = 0 := Vector.getElem_replicate j.isLt

theorem reset_pixel (row : Fin 32) (col : Fin 64) : State.reset.pixel row col = 0 :=
  fb_eq_blankFrame_iff.1 rfl row col

/-- Settles O1: memory reads as its unlisted bytes, FONT then 0; the arrays are replicated zeros; the other fields
hold their values as written. -/
theorem resetIsTheConstructionState : Obligations.ResetIsTheConstructionState :=
  ⟨fun a h => (reset_read a).trans (unlisted_of_lt h), fun a h _ => (reset_read a).trans (unlisted_of_le h),
    reset_reg, rfl, rfl, reset_stack, rfl, rfl, rfl, reset_pixel, rfl⟩

end Sys2Proof.Proofs

/-! ## Decode and encode (30_encoding.md)

Every instruction's word decodes to it and every word that decodes is its instruction's word (`encode_of_decode`), so
what a word decodes to is settled by finding the instruction it is the word of. -/

namespace Sys2Proof.Proofs

open Sys2Proof.Machine

/-! ### Every instruction's word decodes to it (R44, R45) -/

theorem decode_encode_call (nnn : Addr12) : decode (encode (.call nnn)) = .ok (.call nnn) := by
  have hop : opField (packNnn 0x2 nnn) ≠ 0 := by rw [opField_packNnn]; decide
  rw [encode, decode_of_opField hop]
  simp

theorem decode_encode_orReg (x y : RegNum) : decode (encode (.orReg x y)) = .ok (.orReg x y) := by
  rw [encode, decode_packXyn_alu]
  simp [decodeAlu]

theorem decode_encode_andReg (x y : RegNum) : decode (encode (.andReg x y)) = .ok (.andReg x y) := by
  rw [encode, decode_packXyn_alu]
  simp [decodeAlu]

theorem decode_encode_xorReg (x y : RegNum) : decode (encode (.xorReg x y)) = .ok (.xorReg x y) := by
  rw [encode, decode_packXyn_alu]
  simp [decodeAlu]

theorem decode_encode (i : Instr) : decode (encode i) = .ok i := by
  cases i with
  | cls => exact (decode_eq_cls_iff _).2 rfl
  | ret => decide
  | jp nnn => exact decode_packNnn_jp nnn
  | call nnn => exact decode_encode_call nnn
  | seImm x kk => exact decode_encode_seImm x kk
  | sneImm x kk => exact decode_encode_sneImm x kk
  | seReg x y => exact decode_encode_seReg x y
  | ldImm x kk => exact decode_encode_ldImm x kk
  | addImm x kk => exact decode_encode_addImm x kk
  | ldReg x y => exact decode_encode_ldReg x y
  | orReg x y => exact decode_encode_orReg x y
  | andReg x y => exact decode_encode_andReg x y
  | xorReg x y => exact decode_encode_xorReg x y
  | addReg x y => exact decode_encode_addReg x y
  | subReg x y => exact decode_encode_subReg x y
  | shr x y => exact decode_encode_shr x y
  | subnReg x y => exact decode_encode_subnReg x y
  | shl x y => exact decode_encode_shl x y

/-- Every instruction has one word (R44 to R46). -/
theorem decode_eq_ok_iff (w : Word) (i : Instr) : decode w = .ok i ↔ w = encode i :=
  decode_eq_ok_iff_of_decode_encode (decode_encode i) w

theorem decodeBytes_encodeBytes (i : Instr) (rest : List Byte) :
    decodeBytes (encodeBytes i ++ rest) = .ok (i, rest) := by
  rw [encodeBytes, decodeBytes_bytesOfWord, decode_encode]
  rfl

/-- Settles O3: the word decodes by its op and n fields, and the two bytes as the word they make. -/
theorem decodingTheEncodingGivesTheInstruction : Obligations.DecodingTheEncodingGivesTheInstruction :=
  fun i _ => ⟨decode_encode i, decodeBytes_encodeBytes i⟩

/-- Settles O4: the fields a word decodes by are all of the word (`packXyn_fields` and its like). -/
theorem everyDecodedWordIsTheEncoding : Obligations.EveryDecodedWordIsTheEncoding :=
  fun _ _ => encode_of_decode

/-- Settles O7, by evaluation. -/
theorem sampleWordsDecode : Obligations.SampleWordsDecode := by
  unfold Obligations.SampleWordsDecode
  decide

/-! ### The opcode table (R44) -/

theorem row_mem_opcodeRows (i : Instr) : i.row ∈ opcodeRows := by
  cases i <;> simp [opcodeRows, Instr.row]

theorem encode_and_mask (i : Instr) : encode i &&& i.row.mask = i.row.value := by
  have haccepts : i.row.accepts (encode i) = true := by
    cases i with
    | cls => exact Laws.TableRow.cls
    | ret => exact Laws.TableRow.ret
    | jp nnn => exact Laws.TableRow.jp nnn
    | call nnn => exact Laws.TableRow.call nnn
    | seImm x kk => exact Laws.TableRow.seImm x kk
    | sneImm x kk => exact Laws.TableRow.sneImm x kk
    | seReg x y => exact Laws.TableRow.seReg x y
    | ldImm x kk => exact Laws.TableRow.ldImm x kk
    | addImm x kk => exact Laws.TableRow.addImm x kk
    | ldReg x y => exact Laws.TableRow.ldReg x y
    | orReg x y => exact Laws.TableRow.orReg x y
    | andReg x y => exact Laws.TableRow.andReg x y
    | xorReg x y => exact Laws.TableRow.xorReg x y
    | addReg x y => exact Laws.TableRow.addReg x y
    | subReg x y => exact Laws.TableRow.subReg x y
    | shr x y => exact Laws.TableRow.shr x y
    | subnReg x y => exact Laws.TableRow.subnReg x y
    | shl x y => exact Laws.TableRow.shl x y
  exact beq_iff_eq.1 haccepts

/-- A mask with the op bits set keeps the op field. -/
theorem opField_and {m : Word} (hm : opField m = BitVec.allOnes 4) (w : Word) : opField (w &&& m) = opField w :=
  calc opField (w &&& m) = opField w &&& opField m := BitVec.extractLsb'_and
    _ = opField w := by rw [hm, BitVec.and_allOnes]

/-- A mask with the n bits set keeps the n field. -/
theorem nField_and {m : Word} (hm : nField m = BitVec.allOnes 4) (w : Word) : nField (w &&& m) = nField w :=
  calc nField (w &&& m) = nField w &&& nField m := BitVec.extractLsb'_and
    _ = nField w := by rw [hm, BitVec.and_allOnes]

/-- The mask 0xFFFF keeps the word. -/
theorem and_FFFF (w : Word) : w &&& 0xFFFF = w := by
  have hmask : (0xFFFF : Word) = BitVec.allOnes 16 := by decide
  rw [hmask, BitVec.and_allOnes]

/-- Two words that a row with the mask 0xF000 accepts have one op. -/
theorem packNnn_eq_of_and {w : Word} {op : Nibble} {nnn : Addr12} (h : w &&& 0xF000 = packNnn op nnn &&& 0xF000) :
    packNnn op (nnnField w) = w := by
  have hop : opField w = op := by
    rw [← opField_and (m := 0xF000) (by decide), h, opField_and (by decide), opField_packNnn]
  rw [← hop, packNnn_fields]

/-- Two words that a row with the mask 0xF000 accepts have one op. -/
theorem packXkk_eq_of_and {w : Word} {op : Nibble} {x : RegNum} {kk : Byte}
    (h : w &&& 0xF000 = packXkk op x kk &&& 0xF000) : packXkk op (xField w) (kkField w) = w := by
  have hop : opField w = op := by
    rw [← opField_and (m := 0xF000) (by decide), h, opField_and (by decide), opField_packXkk]
  rw [← hop, packXkk_fields]

/-- Two words that a row with the mask 0xF00F accepts have one op and one n. -/
theorem packXyn_eq_of_and {w : Word} {op n : Nibble} {x y : RegNum}
    (h : w &&& 0xF00F = packXyn op x y n &&& 0xF00F) : packXyn op (xField w) (yField w) n = w := by
  have hop : opField w = op := by
    rw [← opField_and (m := 0xF00F) (by decide), h, opField_and (by decide), opField_packXyn]
  have hn : nField w = n := by
    rw [← nField_and (m := 0xF00F) (by decide), h, nField_and (by decide), nField_packXyn]
  rw [← hop, ← hn, packXyn_fields]

/-- A word that an instruction's row accepts is the word of an instruction of that row, with the word's own
operands. -/
theorem exists_encode_eq_of_accepted (i : Instr) {w : Word} (h : w &&& i.row.mask = i.row.value) :
    ∃ j, encode j = w ∧ j.row = i.row := by
  have hi : w &&& i.row.mask = encode i &&& i.row.mask := h.trans (encode_and_mask i).symm
  cases i with
  | cls => exact ⟨.cls, h.symm.trans (and_FFFF w), rfl⟩
  | ret => exact ⟨.ret, h.symm.trans (and_FFFF w), rfl⟩
  | jp => exact ⟨.jp _, packNnn_eq_of_and hi, rfl⟩
  | call => exact ⟨.call _, packNnn_eq_of_and hi, rfl⟩
  | seImm => exact ⟨.seImm _ _, packXkk_eq_of_and hi, rfl⟩
  | sneImm => exact ⟨.sneImm _ _, packXkk_eq_of_and hi, rfl⟩
  | seReg => exact ⟨.seReg _ _, packXyn_eq_of_and hi, rfl⟩
  | ldImm => exact ⟨.ldImm _ _, packXkk_eq_of_and hi, rfl⟩
  | addImm => exact ⟨.addImm _ _, packXkk_eq_of_and hi, rfl⟩
  | ldReg => exact ⟨.ldReg _ _, packXyn_eq_of_and hi, rfl⟩
  | orReg => exact ⟨.orReg _ _, packXyn_eq_of_and hi, rfl⟩
  | andReg => exact ⟨.andReg _ _, packXyn_eq_of_and hi, rfl⟩
  | xorReg => exact ⟨.xorReg _ _, packXyn_eq_of_and hi, rfl⟩
  | addReg => exact ⟨.addReg _ _, packXyn_eq_of_and hi, rfl⟩
  | subReg => exact ⟨.subReg _ _, packXyn_eq_of_and hi, rfl⟩
  | shr => exact ⟨.shr _ _, packXyn_eq_of_and hi, rfl⟩
  | subnReg => exact ⟨.subnReg _ _, packXyn_eq_of_and hi, rfl⟩
  | shl => exact ⟨.shl _ _, packXyn_eq_of_and hi, rfl⟩

theorem exists_row_of_mem_opcodeRows {r : OpcodeRow} (h : r ∈ opcodeRows) : ∃ i : Instr, i.row = r := by
  have hall : ∀ r ∈ opcodeRows, r ∈ Set.range Instr.row := by
    simp [opcodeRows]
  exact hall r h

theorem decodes_to_row {w : Word} {r : OpcodeRow} (hr : r ∈ opcodeRows) (h : w &&& r.mask = r.value) :
    ∃ i, decode w = .ok i ∧ i.row = r := by
  obtain ⟨i, rfl⟩ := exists_row_of_mem_opcodeRows hr
  obtain ⟨j, rfl, hrow⟩ := exists_encode_eq_of_accepted i h
  exact ⟨j, decode_encode j, hrow⟩

/-- Settles O5: a row accepts just the words of its instructions, so a word two rows accept would decode to two
instructions. -/
theorem decodeFollowsTheOpcodeTable : Obligations.DecodeFollowsTheOpcodeTable := by
  refine ⟨rfl, row_mem_opcodeRows, fun w i hi => ?_, fun w r hr h => decodes_to_row hr h, ?_⟩
  · rw [← encode_of_decode hi, encode_and_mask]
  · intro w r r' hr hr' h h'
    obtain ⟨i, hi, rfl⟩ := decodes_to_row hr h
    obtain ⟨j, hj, rfl⟩ := decodes_to_row hr' h'
    rw [Except.ok.inj (hi.symm.trans hj)]

/-! ### The words that do not decode (R47) -/

theorem toNat_opField (w : Word) : (opField w).toNat = w.toNat / 4096 := by
  have hw : w.toNat < 65536 := w.isLt
  simp only [opField, BitVec.extractLsb'_toNat, Nat.shiftRight_eq_div_pow]
  omega

theorem toNat_nField (w : Word) : (nField w).toNat = w.toNat % 16 := by
  simp only [nField, BitVec.extractLsb'_toNat, Nat.shiftRight_zero, Nat.reducePow]

theorem opField_eq_iff (w : Word) (op : Nibble) : opField w = op ↔ w.toNat / 4096 = op.toNat := by
  rw [← BitVec.toNat_inj, toNat_opField]

theorem nField_eq_iff (w : Word) (n : Nibble) : nField w = n ↔ w.toNat % 16 = n.toNat := by
  rw [← BitVec.toNat_inj, toNat_nField]

theorem decodeAlu_eq_error_iff (w : Word) :
    decodeAlu w = .error (.unknownInstruction w) ↔ 8 ≤ w.toNat % 16 ∧ w.toNat % 16 ≠ 0xE := by
  simp only [decodeAlu, nField_eq_iff, BitVec.ofNat_eq_ofNat, BitVec.toNat_ofNat]
  split_ifs <;> simp <;> omega

theorem decode_of_opField_eight {w : Word} (h : opField w = 0x8) : decode w = decodeAlu w := by
  rw [← packXyn_fields w, h, decode_packXyn_alu]

/-- Settles O6: a word's op and n fields are its value divided by 4096 and modulo 16. In group 8 the n field decides,
elsewhere the op field, and in group 5 the two. -/
theorem unknownWordsAreTheListedRanges : Obligations.UnknownWordsAreTheListedRanges := by
  intro w
  have hw : w.toNat < 65536 := w.isLt
  by_cases halu : opField w = 0x8
  · have hgroup : w.toNat / 4096 = 8 := (opField_eq_iff w 0x8).1 halu
    have hcls : w ≠ 0x00E0 ∧ w ≠ 0x00EE := ne_of_opField (by rw [halu]; decide)
    rw [decode_of_opField_eight halu, decodeAlu_eq_error_iff]
    omega
  · have hcls : w = 0x00E0#16 ↔ w.toNat = 0xE0 := BitVec.toNat_inj.symm
    have hret : w = 0x00EE#16 ↔ w.toNat = 0xEE := BitVec.toNat_inj.symm
    rw [decode, if_neg halu]
    simp only [opField_eq_iff, nField_eq_iff, BitVec.ofNat_eq_ofNat, BitVec.toNat_ofNat, ne_eq, hcls, hret] at halu ⊢
    split_ifs <;> simp <;> omega

/-! ### The ignored y field of the shifts (R46) -/

theorem decode_eq_shr_of_fields {w : Word} (hop : opField w = 0x8) (hn : nField w = 0x6) :
    decode w = .ok (.shr (xField w) (yField w)) :=
  (decode_eq_ok_iff w _).2 (by rw [encode, ← hop, ← hn, packXyn_fields])

theorem decode_eq_shl_of_fields {w : Word} (hop : opField w = 0x8) (hn : nField w = 0xE) :
    decode w = .ok (.shl (xField w) (yField w)) :=
  (decode_eq_ok_iff w _).2 (by rw [encode, ← hop, ← hn, packXyn_fields])

theorem exec_shr_ignores_y (x y y' : RegNum) (s : State) : exec (.shr x y) s = exec (.shr x y') s := by
  rw [exec_shr, exec_shr]

theorem exec_shl_ignores_y (x y y' : RegNum) (s : State) : exec (.shl x y) s = exec (.shl x y') s := by
  rw [exec_shl, exec_shl]

/-- Settles O8: the two words decode to shifts of the same register, whose meaning does not name y. -/
theorem shiftWordsIgnoreTheYField : Obligations.ShiftWordsIgnoreTheYField := by
  intro w w' hop hop' hx hn hshift
  rcases hshift with hshr | hshl
  · refine ⟨_, _, decode_eq_shr_of_fields hop hshr, decode_eq_shr_of_fields hop' (hn ▸ hshr), fun s => ?_⟩
    rw [← hx]
    exact exec_shr_ignores_y _ _ _ s
  · refine ⟨_, _, decode_eq_shl_of_fields hop hshl, decode_eq_shl_of_fields hop' (hn ▸ hshl), fun s => ?_⟩
    rw [← hx]
    exact exec_shl_ignores_y _ _ _ s

end Sys2Proof.Proofs

/-! ## The assembly spelling (30_encoding.md R50) -/

namespace Sys2Proof.Proofs

open Sys2Proof.Machine

theorem instr?_spelling (i : Instr) : i.spelling.instr? = some i := by
  cases i with
  | cls => exact Laws.Spelling.cls
  | ret => exact Laws.Spelling.ret
  | jp nnn => exact Laws.Spelling.jp nnn
  | call nnn => exact Laws.Spelling.call nnn
  | seImm x kk => exact Laws.Spelling.seImm x kk
  | sneImm x kk => exact Laws.Spelling.sneImm x kk
  | seReg x y => exact Laws.Spelling.seReg x y
  | ldImm x kk => exact Laws.Spelling.ldImm x kk
  | addImm x kk => exact Laws.Spelling.addImm x kk
  | ldReg x y => exact Laws.Spelling.ldReg x y
  | orReg x y => exact Laws.Spelling.orReg x y
  | andReg x y => exact Laws.Spelling.andReg x y
  | xorReg x y => exact Laws.Spelling.xorReg x y
  | addReg x y => exact Laws.Spelling.addReg x y
  | subReg x y => exact Laws.Spelling.subReg x y
  | shr x y => exact Laws.Spelling.shr x y
  | subnReg x y => exact Laws.Spelling.subnReg x y
  | shl x y => exact Laws.Spelling.shl x y

/-! ### A spelling that stands for an instruction is that instruction's own -/

theorem spelling_of_regByteInstr {m : String} {x : RegNum} {kk : Byte} {i : Instr}
    (h : regByteInstr m x kk = some i) : i.spelling = ⟨m, [.reg x.toNat, .byte kk.toNat]⟩ := by
  unfold regByteInstr at h
  split_ifs at h with hm hm hm hm <;> cases h <;> rw [hm] <;> rfl

/-- With two registers a shift's y is not 0: y = 0 is spelled with one register. -/
theorem spelling_of_regRegInstr {m : String} {x y : RegNum} {i : Instr} (h : regRegInstr m x y = some i)
    (hy : m = "SHR" ∨ m = "SHL" → y ≠ 0#4) : i.spelling = ⟨m, [.reg x.toNat, .reg y.toNat]⟩ := by
  by_cases hshift : m = "SHR" ∨ m = "SHL"
  · have hops := shiftOperands_ne (x := x) (hy hshift)
    rcases hshift with rfl | rfl <;> cases h <;> rw [Instr.spelling, hops]
  · obtain ⟨hshr, hshl⟩ := not_or.1 hshift
    unfold regRegInstr at h
    rw [if_neg hshr, if_neg hshl] at h
    split_ifs at h with hm hm hm hm hm hm hm hm <;> cases h <;> rw [hm] <;> rfl

theorem spelling_of_shift_without_y {m : String} {x : RegNum} {i : Instr} (h : regRegInstr m x 0#4 = some i)
    (hm : m = "SHR" ∨ m = "SHL") : i.spelling = ⟨m, [.reg x.toNat]⟩ := by
  rcases hm with rfl | rfl <;> cases h <;> rfl

theorem toNat_ofNat_of_lt {w n : Nat} (h : n < 2 ^ w) : (BitVec.ofNat w n).toNat = n := by
  rw [BitVec.toNat_ofNat, Nat.mod_eq_of_lt h]

theorem eq_spelling_of_instr? {p : Spelling} {i : Instr} (h : p.instr? = some i) : p = i.spelling := by
  unfold Spelling.instr? at h
  split at h
  case isFalse => cases h
  case isTrue hwf =>
  simp only [Spelling.wellFormed, Bool.and_eq_true] at hwf
  obtain ⟨hshape, hops⟩ := hwf
  split at h
  · split_ifs at h with hm hm <;> cases h <;> rw [hm] <;> rfl
  · next m a =>
    have ha : a < 4096 := by simpa [AsmOperand.wellFormed] using hops
    split_ifs at h with hm hm <;> cases h <;> rw [hm, Instr.spelling, toNat_ofNat_of_lt ha]
  · next m x k =>
    obtain ⟨hx, hk⟩ : x < 16 ∧ k < 256 := by simpa [AsmOperand.wellFormed] using hops
    rw [spelling_of_regByteInstr h, toNat_ofNat_of_lt hx, toNat_ofNat_of_lt hk]
  · next m x =>
    have hx : x < 16 := by simpa [AsmOperand.wellFormed] using hops
    have hm : m = "SHR" ∨ m = "SHL" := by simpa [Spelling.shapeKnown] using hshape
    rw [spelling_of_shift_without_y h hm, toNat_ofNat_of_lt hx]
  · next m x y =>
    obtain ⟨hx, hy⟩ : x < 16 ∧ y < 16 := by simpa [AsmOperand.wellFormed] using hops
    have hy0 : m = "SHR" ∨ m = "SHL" → y ≠ 0 := by
      rintro (rfl | rfl) <;> simpa [Spelling.shapeKnown] using hshape
    have hy0' : m = "SHR" ∨ m = "SHL" → BitVec.ofNat 4 y ≠ 0#4 := fun hm he =>
      hy0 hm ((toNat_ofNat_of_lt hy).symm.trans (congrArg BitVec.toNat he))
    rw [spelling_of_regRegInstr h hy0', toNat_ofNat_of_lt hx, toNat_ofNat_of_lt hy]
  · cases h

/-- Settles O9: reading a spelling and spelling an instruction undo each other. -/
theorem everySpellingIsTheOneSpelling : Obligations.EverySpellingIsTheOneSpelling := by
  refine ⟨instr?_spelling, fun _ _ => eq_spelling_of_instr?, fun i j hij => ?_⟩
  have hread : some i = some j := by rw [← instr?_spelling i, hij, instr?_spelling j]
  exact Option.some.inj hread

end Sys2Proof.Proofs

/-! ## The fetch, and the instruction a step runs (20_memory.md) -/

namespace Sys2Proof.Proofs

open Sys2Proof.Machine Sys2Proof.Safety

/-! ### When the fetch faults (R33, R34) -/

theorem getLsbD_zero_eq_true_iff (a : Addr) : a.getLsbD 0 = true ↔ a.toNat % 2 = 1 := by
  rw [← BitVec.testBit_toNat, Nat.testBit_zero, decide_eq_true_iff]

theorem getLsbD_zero_eq_false_iff (a : Addr) : a.getLsbD 0 = false ↔ a.toNat % 2 = 0 := by
  rw [← Bool.not_eq_true, getLsbD_zero_eq_true_iff, Nat.mod_two_not_eq_one]

/-- Settles O11, by the three answers a fetch has. -/
theorem fetchFaultsOutsideItsRange : Obligations.FetchFaultsOutsideItsRange := by
  intro s
  rcases fetch_cases s with ⟨hodd, hf⟩ | ⟨heven, hhigh, hf⟩ | ⟨⟨heven, hlow⟩, hf⟩
  · rw [getLsbD_zero_eq_true_iff] at hodd
    simp [hf, hodd]
  · rw [getLsbD_zero_eq_false_iff] at heven
    simp [hf, heven, hhigh]
  · rw [getLsbD_zero_eq_false_iff] at heven
    simp [hf, heven, hlow]

/-! ### The step of a core that can fetch (R36) -/

theorem step_of_decoded {s : State} {i : Instr} (hs : s.fault = none) (hf : Fetchable s)
    (hd : decode (wordAtPc s) = .ok i) : step s = exec i s :=
  cycle_of_decoded hs (fetch_of_fetchable hf) hd

theorem decode_of_decodeBytes {w : Word} {i : Instr} {rest : List Byte}
    (h : decodeBytes (bytesOfWord w) = .ok (i, rest)) : decode w = .ok i := by
  have hmap : (decode w).map (fun j => (j, [])) = .ok (i, rest) := by
    rw [← decodeBytes_bytesOfWord, List.append_nil, h]
  cases hd : decode w with
  | error e => rw [hd] at hmap; cases hmap
  | ok j => rw [hd] at hmap; cases hmap; rfl

theorem bytesOfWord_wordAtPc (s : State) :
    bytesOfWord (wordAtPc s) = [s.mem.read s.pc.toNat, s.mem.read (s.pc.toNat + 1)] := by
  change [highByte (wordOfBytes _ _), lowByte (wordOfBytes _ _)] = _
  rw [highByte_wordOfBytes, lowByte_wordOfBytes]

/-- Settles O12: the two bytes at pc are the bytes of the fetched word. -/
theorem stepRunsTheDecodedInstruction : Obligations.StepRunsTheDecodedInstruction := by
  intro s i hs hf _ hd
  rw [← bytesOfWord_wordAtPc] at hd
  exact step_of_decoded hs hf (decode_of_decodeBytes hd)

/-! ### The word placed at pc (R32) -/

theorem decode_tableWord_of_decodeTableWord {nbits w : Nat} {i : Instr} (h : decodeTableWord nbits w = some i) :
    decode (tableWord nbits w) = .ok i := by
  unfold decodeTableWord at h
  split at h
  · cases h
  · split at h
    · next hd => cases h; exact decode_of_decodeBytes hd
    · cases h

theorem wordAtPc_placeWord {s : State} (hf : Fetchable s) (w : Word) : wordAtPc (s.placeWord w) = w := by
  have hlow : s.pc.toNat ≤ 0x0FFE := hf.2
  have hhi : (s.placeWord w).mem.read s.pc.toNat = highByte w := by
    rw [State.placeWord, Memory.read_write_other _ _ (by omega), Memory.read_write_same _ _ (by omega)]
  have hlo : (s.placeWord w).mem.read (s.pc.toNat + 1) = lowByte w := by
    rw [State.placeWord, Memory.read_write_same _ _ (by omega)]
  calc wordAtPc (s.placeWord w) = wordOfBytes (highByte w) (lowByte w) := congrArg₂ wordOfBytes hhi hlo
    _ = w := wordOfBytes_bytes w

theorem read_placeWord_other (s : State) (w : Word) {a : Nat} (h : a ≠ s.pc.toNat) (h' : a ≠ s.pc.toNat + 1) :
    (s.placeWord w).mem.read a = s.mem.read a := by
  rw [State.placeWord, Memory.read_write_other _ _ h', Memory.read_write_other _ _ h]

/-- Settles O13: placing a word leaves pc and the fault status, and the fetch then reads that word. -/
theorem placedWordIsTheNextInstruction : Obligations.PlacedWordIsTheNextInstruction := by
  intro s w i hs hf _ hd
  have hword : decode (wordAtPc (s.withFetchWord 16 w)) = .ok i := by
    rw [State.withFetchWord, wordAtPc_placeWord hf, decode_tableWord_of_decodeTableWord hd]
  exact ⟨step_of_decoded hs hf hword, fun a h h' => read_placeWord_other s _ h h'⟩

end Sys2Proof.Proofs

/-! ## RET and CALL (41_flow.md)

Each has three ends, told apart by sp: the fault of the spec, the transfer, and the model's stop where sp is outside
its legal range. -/

namespace Sys2Proof.Proofs

open Sys2Proof.Machine Sys2Proof.Safety

/-! ### RET (R54) -/

theorem exec_ret_of_empty {s : State} (h : s.sp = 0) :
    exec .ret s = .next { s with fault := some ⟨.stackUnderflow, s.pc, some 0x00EE⟩ } := by
  change execRet s = _
  rw [execRet, if_pos h]
  rfl

theorem exec_ret_of_entry {s : State} (h : 0 < s.sp.toNat) (hs : s.sp.toNat < 16) :
    exec .ret s = .next { s with sp := s.sp - 1, pc := s.stack[s.sp.toNat] } := by
  have h0 : s.sp ≠ 0 := by rintro h0; rw [h0] at h; exact absurd h (by decide)
  change execRet s = _
  rw [execRet, if_neg h0, State.pop_of_slot hs]
  rfl

theorem exec_ret_of_illegal {s : State} (h : s.sp.toNat > 15) :
    exec .ret s = .fault (.stackPointerOutOfRange s.sp) := by
  have h0 : s.sp ≠ 0 := by rintro h0; rw [h0] at h; exact absurd h (by decide)
  have hpop : s.pop = none := dif_neg (by omega)
  change execRet s = _
  rw [execRet, if_neg h0, hpop]

/-- Settles O37. -/
theorem retOnAnEmptyStackUnderflows : Obligations.RetOnAnEmptyStackUnderflows :=
  fun _ => exec_ret_of_empty

/-- Settles O36: RET writes sp and pc only. -/
theorem retPopsTheReturnAddress : Obligations.RetPopsTheReturnAddress := by
  intro s hs h
  have hsp : (s.sp - 1).toNat = s.sp.toNat - 1 := by bv_omega
  exact ⟨_, exec_ret_of_entry h hs, rfl, hsp, fun _ => rfl, fun _ => rfl, fun _ => rfl, rfl, rfl, rfl, rfl, rfl⟩

/-! ### CALL (R56) -/

theorem exec_call_of_full {s : State} (nnn : Addr12) (h : s.sp = 15) : exec (.call nnn) s =
    .next { s with fault := some ⟨.stackOverflow, s.pc, some (encode (.call nnn))⟩ } := by
  change execCall nnn s = _
  rw [execCall, if_pos h]
  rfl

theorem exec_call_of_room {s : State} (nnn : Addr12) (hs : s.sp.toNat + 1 < 16) : exec (.call nnn) s =
    .next { s with
      sp := s.sp + 1, stack := s.stack.set (s.sp.toNat + 1) (s.pc + 2) hs, pc := jumpTarget nnn } := by
  have h15 : s.sp ≠ 15 := by rintro h15; rw [h15] at hs; exact absurd hs (by decide)
  change execCall nnn s = _
  rw [execCall, if_neg h15, State.push_of_room _ hs]
  rfl

theorem exec_call_of_illegal {s : State} (nnn : Addr12) (h : s.sp.toNat > 15) :
    exec (.call nnn) s = .fault (.stackPointerOutOfRange s.sp) := by
  have h15 : s.sp ≠ 15 := by rintro h15; rw [h15] at h; exact absurd h (by decide)
  have hpush : s.push (returnAddress s) = none := dif_neg (by omega)
  change execCall nnn s = _
  rw [execCall, if_neg h15, hpush]

theorem toNat_encode_call (nnn : Addr12) : (encode (.call nnn)).toNat = 0x2000 + nnn.toNat :=
  calc (encode (.call nnn)).toNat
      = 2 <<< 12 ||| nnn.toNat := BitVec.toNat_append 0x2#4 nnn
    _ = 2 <<< 12 + nnn.toNat := (Nat.shiftLeft_add_eq_or_of_lt nnn.isLt 2).symm

/-- Settles O40: the record's word is the CALL's one encoding. -/
theorem callOnAFullStackOverflows : Obligations.CallOnAFullStackOverflows :=
  fun nnn _ h => ⟨encode (.call nnn), toNat_encode_call nnn, exec_call_of_full nnn h⟩

/-- Settles O39: CALL writes sp, the slot above it and pc only. -/
theorem callPushesTheReturnAddress : Obligations.CallPushesTheReturnAddress := by
  intro nnn s hs
  have hsp : (s.sp + 1).toNat = s.sp.toNat + 1 := by bv_omega
  exact ⟨_, exec_call_of_room nnn hs, jumpTarget_toNat nnn, hsp, Vector.getElem_set_self hs,
    fun j hj => Vector.getElem_set_ne hs j.isLt hj.symm, fun _ => rfl, fun _ => rfl, rfl, rfl, rfl, rfl, rfl⟩

/-- Settles O42: the slot CALL writes is the one sp then points to, which is the one RET reads. -/
theorem callThenRetReturnsPastTheCall : Obligations.CallThenRetReturnsPastTheCall := by
  intro nnn s hs
  obtain ⟨t, hcall, -, hsp, hslot, hslots, hreg, hmem, hi, hdt, hst, hfb, -⟩ :=
    callPushesTheReturnAddress nnn s (by omega)
  obtain ⟨u, hret, hpc', hsp', hslots', hreg', hmem', hi', hdt', hst', hfb', -⟩ :=
    retPopsTheReturnAddress t (by omega) (by omega)
  refine ⟨t, u, hcall, hret, ?_, BitVec.eq_of_toNat_eq (by omega), fun r => (hreg' r).trans (hreg r),
    fun a => (hmem' a).trans (hmem a), hi'.trans hi, hdt'.trans hdt, hst'.trans hst, hfb'.trans hfb,
    fun j hj => (hslots' j).trans (hslots j hj)⟩
  simpa only [hpc', hsp] using hslot

/-! ### What an execution can answer (10_state.md R21; assumption log 3) -/

/-- An execution answers a next state, or it is a RET or CALL that stops for its sp. -/
theorem exec_answers (i : Instr) (s : State) : (∃ t, exec i s = .next t) ∨
    (s.sp.toNat > 15 ∧ (i = .ret ∨ ∃ nnn, i = .call nnn) ∧ exec i s = .fault (.stackPointerOutOfRange s.sp)) := by
  by_cases hret : i = .ret
  · subst hret
    by_cases hill : s.sp.toNat > 15
    · exact .inr ⟨hill, .inl rfl, exec_ret_of_illegal hill⟩
    · by_cases h0 : s.sp = 0
      · exact .inl ⟨_, exec_ret_of_empty h0⟩
      · exact .inl ⟨_, exec_ret_of_entry (by bv_omega) (by omega)⟩
  · by_cases hcall : ∃ nnn, i = .call nnn
    · obtain ⟨nnn, rfl⟩ := hcall
      by_cases hill : s.sp.toNat > 15
      · exact .inr ⟨hill, .inr ⟨nnn, rfl⟩, exec_call_of_illegal nnn hill⟩
      · by_cases h15 : s.sp = 15
        · exact .inl ⟨_, exec_call_of_full nnn h15⟩
        · exact .inl ⟨_, exec_call_of_room nnn (by bv_omega)⟩
    · obtain ⟨t, ht, -⟩ := otherInstructionsAlwaysSucceed i s hret (not_exists.1 hcall)
      exact .inl ⟨t, ht⟩

/-- Settles O41. -/
theorem illegalStackPointerStops : Obligations.IllegalStackPointerStops := by
  refine ⟨fun s h => ⟨exec_ret_of_illegal h, fun nnn => exec_call_of_illegal nnn h⟩, fun i s r h => ?_,
    fun i s r h => ?_⟩
  · rcases exec_answers i s with ⟨t, ht⟩ | ⟨hsp, hi, hf⟩
    · rw [ht] at h; cases h
    · rw [hf] at h; cases h; exact ⟨hsp, hi, rfl⟩
  · rcases exec_answers i s with ⟨t, ht⟩ | ⟨-, -, hf⟩
    · rw [ht] at h; cases h
    · rw [hf] at h; cases h

/-- Settles O31. The pc of a skip is the one of `onlyMovedPc_of_skipIf`; the last alternative is every instruction
that goes on with Next. -/
theorem pcFollowsTheActionOfEachInstruction : Obligations.PcFollowsTheActionOfEachInstruction := by
  intro i s t h hs ht
  cases i with
  | ret =>
    rcases execRet_next_cases h with ⟨-, rfl⟩ | ⟨-, hslot, rfl⟩
    · cases ht
    · exact ⟨hslot, rfl⟩
  | call nnn =>
    rcases execCall_next_cases h with ⟨-, rfl⟩ | ⟨-, hslot, rfl⟩
    · cases ht
    · exact jumpTarget_toNat nnn
  | jp nnn =>
    obtain rfl := complete_eq_next.1 h
    exact jumpTarget_toNat nnn
  | seImm x kk =>
    obtain rfl := complete_eq_next.1 h
    exact (onlyMovedPc_of_skipIf beq_iff_eq s).pc
  | sneImm x kk =>
    obtain rfl := complete_eq_next.1 h
    exact (onlyMovedPc_of_skipIf bne_iff_ne s).pc.trans (ite_not _ _ _)
  | seReg x y =>
    obtain rfl := complete_eq_next.1 h
    exact (onlyMovedPc_of_skipIf beq_iff_eq s).pc
  | cls | ldImm | addImm | ldReg | orReg | andReg | xorReg | addReg | subReg | shr | subnReg | shl =>
    obtain rfl := complete_eq_next.1 h
    rfl

end Sys2Proof.Proofs

/-! ## The flag, and the logic operations (10_state.md R15, 44_alu.md) -/

namespace Sys2Proof.Proofs

open Sys2Proof.Machine Sys2Proof.Safety

/-! ### Who writes VF (R15) -/

/-- VF after a result and a flag are written: the flag, whatever x is. -/
theorem vf_of_setRegThenFlag_flagOf (s : State) (x : RegNum) (result : Byte) (b : Bool) :
    ((s.setRegThenFlag x result (flagOf b)).act .next).reg vf = 0 ∨
      ((s.setRegThenFlag x result (flagOf b)).act .next).reg vf = 1 := by
  rw [State.act_reg, State.reg_setRegThenFlag, if_pos rfl]
  exact flagOf_cases b

theorem vf_of_flag_instruction {x y : RegNum} {s t : State}
    (h : exec (.addReg x y) s = .next t ∨ exec (.subReg x y) s = .next t ∨ exec (.shr x y) s = .next t ∨
      exec (.subnReg x y) s = .next t ∨ exec (.shl x y) s = .next t) :
    t.reg vf = 0 ∨ t.reg vf = 1 := by
  rcases h with h | h | h | h | h <;>
  · obtain rfl := complete_eq_next.1 h
    exact vf_of_setRegThenFlag_flagOf s x _ _

/-- Where writing one register changes VF, the register is VF. -/
theorem eq_vf_of_setReg_changes {s t : State} {x : RegNum} {b : Byte} (h : complete (s.setReg x b) .next = .next t)
    (hvf : t.reg vf ≠ s.reg vf) : x = vf := by
  obtain rfl := complete_eq_next.1 h
  by_contra hx
  exact hvf ((wroteReg_of_setReg s x b).others vf (Ne.symm hx))

/-- Settles O30: the instructions that write no register leave VF, those that write one leave it unless they name it,
and the five others write a flag to it last. -/
theorem onlyFiveInstructionsWriteTheFlag : Obligations.OnlyFiveInstructionsWriteTheFlag := by
  refine ⟨fun i s t h hvf => ?_, fun _ _ _ _ => vf_of_flag_instruction⟩
  cases i with
  | ret =>
    rcases execRet_next_cases h with ⟨-, rfl⟩ | ⟨-, _, rfl⟩ <;> exact absurd rfl hvf
  | call nnn =>
    rcases execCall_next_cases h with ⟨-, rfl⟩ | ⟨-, _, rfl⟩ <;> exact absurd rfl hvf
  | cls | jp | seImm | sneImm | seReg =>
    obtain rfl := complete_eq_next.1 h
    exact absurd rfl hvf
  | ldImm x kk => cases eq_vf_of_setReg_changes h hvf; exact .inr (.inl ⟨kk, .inl rfl⟩)
  | addImm x kk => cases eq_vf_of_setReg_changes h hvf; exact .inr (.inl ⟨kk, .inr rfl⟩)
  | ldReg x y => cases eq_vf_of_setReg_changes h hvf; exact .inr (.inr ⟨y, .inl rfl⟩)
  | orReg x y => cases eq_vf_of_setReg_changes h hvf; exact .inr (.inr ⟨y, .inr (.inl rfl)⟩)
  | andReg x y => cases eq_vf_of_setReg_changes h hvf; exact .inr (.inr ⟨y, .inr (.inr (.inl rfl))⟩)
  | xorReg x y => cases eq_vf_of_setReg_changes h hvf; exact .inr (.inr ⟨y, .inr (.inr (.inr rfl))⟩)
  | addReg x y => exact .inl ⟨⟨x, y, .inl rfl⟩, vf_of_flag_instruction (.inl h)⟩
  | subReg x y => exact .inl ⟨⟨x, y, .inr (.inl rfl)⟩, vf_of_flag_instruction (.inr (.inl h))⟩
  | shr x y => exact .inl ⟨⟨x, y, .inr (.inr (.inl rfl))⟩, vf_of_flag_instruction (.inr (.inr (.inl h)))⟩
  | subnReg x y =>
    exact .inl ⟨⟨x, y, .inr (.inr (.inr (.inl rfl)))⟩, vf_of_flag_instruction (.inr (.inr (.inr (.inl h))))⟩
  | shl x y =>
    exact .inl ⟨⟨x, y, .inr (.inr (.inr (.inr rfl)))⟩, vf_of_flag_instruction (.inr (.inr (.inr (.inr h))))⟩

/-! ### OR, AND, XOR (R64 to R66) -/

theorem exec_orReg (x y : RegNum) (s : State) :
    exec (.orReg x y) s = .next ((s.setReg x (s.reg x ||| s.reg y)).act .next) := rfl

theorem exec_andReg (x y : RegNum) (s : State) :
    exec (.andReg x y) s = .next ((s.setReg x (s.reg x &&& s.reg y)).act .next) := rfl

theorem exec_xorReg (x y : RegNum) (s : State) :
    exec (.xorReg x y) s = .next ((s.setReg x (s.reg x ^^^ s.reg y)).act .next) := rfl

/-- Writing one register, the result named by the register and known bit by bit. -/
theorem wroteBits_of_setReg (s : State) (x : RegNum) {b : Byte} {bit : Nat → Bool} (h : ∀ j, b.getLsbD j = bit j) :
    let t := (s.setReg x b).act .next
    WroteReg s t x (t.reg x) ∧ ∀ j, (t.reg x).getLsbD j = bit j := by
  have hwrote := wroteReg_of_setReg s x b
  exact ⟨{ hwrote with dest := rfl }, fun j => by rw [hwrote.dest, h]⟩

/-- Settles O49: each writes one register, with the bits of the bitwise operation. -/
theorem logicOperationsActBitByBit : Obligations.LogicOperationsActBitByBit := fun x y s =>
  ⟨⟨_, exec_orReg x y s, wroteBits_of_setReg s x fun _ => BitVec.getLsbD_or⟩,
    ⟨_, exec_andReg x y s, wroteBits_of_setReg s x fun _ => BitVec.getLsbD_and⟩,
    ⟨_, exec_xorReg x y s, wroteBits_of_setReg s x fun _ => BitVec.getLsbD_xor⟩⟩

/-! ### One register named twice (the corner cases of R66, R67, R68, R70) -/

theorem aluSub_self (a : Byte) : aluSub a a = 0 := by
  apply BitVec.eq_of_toNat_eq
  rw [aluSub_toNat, Nat.add_sub_cancel_left]
  rfl

theorem borrowFlag_self (a : Byte) : borrowFlag a a = 0 := by
  rw [borrowFlag_eq, if_neg (lt_irrefl _)]

theorem aluAdd_self_toNat (a : Byte) : (aluAdd a a).toNat = 2 * a.toNat % 256 := by
  rw [aluAdd_toNat, Nat.two_mul]

/-- The carry of a doubling is bit 7. -/
theorem carryFlag_self_toNat (a : Byte) : (carryFlag a a).toNat = a.toNat / 128 := by
  have ha : a.toNat < 256 := a.isLt
  rw [carryFlag_eq]
  split
  · change 1 = _; omega
  · change 0 = _; omega

/-- Settles O55: the frames of the four instructions, with the values that x = y gives their results and flags. -/
theorem sameRegisterTwiceNeedsNoSpecialCase : Obligations.SameRegisterTwiceNeedsNoSpecialCase := by
  intro x s hx
  have hdiff := wroteRegAndFlag_of_setRegThenFlag s x (aluSub (s.reg x) (s.reg x)) (borrowFlag (s.reg x) (s.reg x))
  have hxor := wroteReg_of_setReg s x (s.reg x ^^^ s.reg x)
  have hsum := wroteRegAndFlag_of_setRegThenFlag s x (aluAdd (s.reg x) (s.reg x)) (carryFlag (s.reg x) (s.reg x))
  have hzero := (hdiff.dest hx).trans (aluSub_self _)
  have hnoBorrow := hdiff.flag.trans (borrowFlag_self _)
  refine ⟨⟨_, exec_subReg x x s, hzero, hnoBorrow⟩, ⟨_, exec_subnReg x x s, hzero, hnoBorrow⟩,
    ⟨_, exec_xorReg x x s, hxor.dest.trans BitVec.xor_self, hxor.others vf (Ne.symm hx)⟩,
    ⟨_, exec_addReg x x s, ?_, ?_⟩⟩
  · rw [hsum.dest hx, aluAdd_self_toNat]
  · rw [hsum.flag, carryFlag_self_toNat]

end Sys2Proof.Proofs

/-! ## What a step can do (20_memory.md R36, 60_exceptions.md)

A step that answers a next state has done one of six things. They are said once here, as `StepEffect`; the records of
faults, the invariant, the stack, the frame buffer and the fixed points all follow from it. -/

namespace Sys2Proof.Proofs

open Sys2Proof.Machine Sys2Proof.Safety

/-! ### The checks of a step, in their order (R80) -/

theorem step_of_faulted {s : State} {r : FaultRecord} (h : s.fault = some r) : step s = .fault (.halted r) :=
  cycle_of_faulted h

theorem step_of_fetch_error {s : State} {c : FaultCode} (hs : s.fault = none) (hf : fetch s = .error c) :
    step s = .next { s with fault := some ⟨c, s.pc, none⟩ } :=
  cycle_of_fetch_error hs hf

theorem step_of_unknown {s : State} {w : Word} (hs : s.fault = none) (hf : fetch s = .ok w)
    (hd : ∀ i, decode w ≠ .ok i) : step s = .next { s with fault := some ⟨.unknownInstruction, s.pc, some w⟩ } := by
  cases he : decode w with
  | error e => exact cycle_of_unknown hs hf he
  | ok i => exact absurd he (hd i)

/-- Settles O18. -/
theorem faultedCoreTakesNoStep : Obligations.FaultedCoreTakesNoStep := by
  intro s r h
  refine ⟨step_of_faulted h, fun t ht => ?_⟩
  rw [step_of_faulted h] at ht
  cases ht

/-- Settles O14: the fetch faults by their own conditions, the stack faults as the faults of the executed word, which
is the word of the instruction it decodes to. -/
theorem stepFaultsInPriorityOrder : Obligations.StepFaultsInPriorityOrder := by
  intro s hs
  refine ⟨fun hodd => ?_, fun heven hhigh => ?_, fun hf hd => ?_, fun nnn hf hd hsp => ?_, fun hf hw hsp => ?_⟩
  · exact step_of_fetch_error hs (fetch_of_odd ((getLsbD_zero_eq_true_iff s.pc).2 hodd))
  · exact step_of_fetch_error hs (fetch_of_high ((getLsbD_zero_eq_false_iff s.pc).2 heven) hhigh)
  · exact step_of_unknown hs (fetch_of_fetchable hf) hd
  · rw [step_of_decoded hs hf hd, exec_call_of_full nnn hsp, encode_of_decode hd]
  · have hd : decode (wordAtPc s) = .ok .ret := (decode_eq_ok_iff _ _).2 hw
    rw [step_of_decoded hs hf hd, exec_ret_of_empty hsp]

/-- Settles O15: the record makes the next state, whose own step answers the record's fault. -/
theorem unknownInstructionNeverAdvances : Obligations.UnknownInstructionNeverAdvances :=
  fun _ _ hs hf hd => ⟨_, step_of_unknown hs hf hd, rfl, rfl, step_of_faulted rfl⟩

/-- Settles O19: every fault of a fetch or of decode is a next state, and with sp legal every execution answers one. -/
theorem unfaultedCoreAlwaysSteps : Obligations.UnfaultedCoreAlwaysSteps := by
  intro s hs hsp
  rcases fetch_cases s with ⟨-, hf⟩ | ⟨-, -, hf⟩ | ⟨hp, hf⟩
  · exact ⟨_, step_of_fetch_error hs hf⟩
  · exact ⟨_, step_of_fetch_error hs hf⟩
  · by_cases hd : ∃ i, decode (wordAtPc s) = .ok i
    · obtain ⟨i, hd⟩ := hd
      rcases exec_answers i s with ⟨t, ht⟩ | ⟨hill, -⟩
      · exact ⟨t, (step_of_decoded hs hp hd).trans ht⟩
      · exact absurd hsp (Nat.not_le.2 hill)
    · exact ⟨_, step_of_unknown hs hf (not_exists.1 hd)⟩

/-! ### The effects of a step -/

/-- What a step from the state `s` can leave. -/
inductive StepEffect (s : State) : State → Prop
  /-- a fault is raised: only its record is written (R81) -/
  | faulted (r : FaultRecord) (fits : RecordFits s r) : StepEffect s { s with fault := some r }
  /-- RET, with an entry on the stack (41_flow.md R54) -/
  | returned (hf : Fetchable s) (hd : decode (wordAtPc s) = .ok .ret) (h0 : 0 < s.sp.toNat) (hs : s.sp.toNat < 16) :
    StepEffect s { s with sp := s.sp - 1, pc := s.stack[s.sp.toNat] }
  /-- CALL, with room on the stack (41_flow.md R56) -/
  | called (nnn : Addr12) (hf : Fetchable s) (hd : decode (wordAtPc s) = .ok (.call nnn)) (hs : s.sp.toNat + 1 < 16) :
    StepEffect s { s with
      sp := s.sp + 1, stack := s.stack.set (s.sp.toNat + 1) (s.pc + 2) hs, pc := jumpTarget nnn }
  /-- JP (41_flow.md R55) -/
  | jumped (nnn : Addr12) (hf : Fetchable s) (hd : decode (wordAtPc s) = .ok (.jp nnn)) :
    StepEffect s { s with pc := jumpTarget nnn }
  /-- CLS (40_display.md R53) -/
  | cleared (hf : Fetchable s) (hd : decode (wordAtPc s) = .ok .cls) :
    StepEffect s { s with fb := blankFrame, pc := s.pc + 2 }
  /-- every other instruction: registers are written, or a skip is taken or not -/
  | advanced (v : Vector Byte 16) (pc : Addr) (hf : Fetchable s) (hpc : pc = s.pc + 2 ∨ pc = s.pc + 4) :
    StepEffect s { s with v := v, pc := pc }

theorem target_skipIf_cases (pc : Addr) (c : Bool) : (skipIf c).target pc = pc + 2 ∨ (skipIf c).target pc = pc + 4 := by
  cases c
  · exact .inl rfl
  · exact .inr rfl

theorem stepEffect_of_exec {s t : State} {i : Instr} (hf : Fetchable s) (hd : decode (wordAtPc s) = .ok i)
    (h : exec i s = .next t) : StepEffect s t := by
  have hfetch := fetch_of_fetchable hf
  have hword := encode_of_decode hd
  cases i with
  | ret =>
    rcases execRet_next_cases h with ⟨h0, rfl⟩ | ⟨h0, hs, rfl⟩
    · exact .faulted _ ⟨rfl, hfetch.trans (congrArg Except.ok hword.symm), h0, rfl⟩
    · exact .returned hf hd (by bv_omega) hs
  | call nnn =>
    rcases execCall_next_cases h with ⟨h15, rfl⟩ | ⟨-, hs, rfl⟩
    · exact .faulted _ ⟨rfl, _, nnn, hfetch, hd, h15, congrArg some hword⟩
    · exact .called nnn hf hd hs
  | jp nnn =>
    obtain rfl := complete_eq_next.1 h
    exact .jumped nnn hf hd
  | cls =>
    obtain rfl := complete_eq_next.1 h
    exact .cleared hf hd
  | seImm | sneImm | seReg =>
    obtain rfl := complete_eq_next.1 h
    exact .advanced s.v _ hf (target_skipIf_cases s.pc _)
  | ldImm | addImm | ldReg | orReg | andReg | xorReg | addReg | subReg | shr | subnReg | shl =>
    obtain rfl := complete_eq_next.1 h
    exact .advanced _ _ hf (.inl rfl)

theorem recordFits_of_fetch_error {s : State} {c : FaultCode} (h : fetch s = .error c) :
    RecordFits s ⟨c, s.pc, none⟩ := by
  rcases fetch_cases s with ⟨hodd, hf⟩ | ⟨-, hhigh, hf⟩ | ⟨-, hf⟩
  · rw [hf] at h; cases h; exact ⟨rfl, hodd, rfl⟩
  · rw [hf] at h; cases h; exact ⟨rfl, hhigh, rfl⟩
  · rw [hf] at h; cases h

theorem stepEffect_of_step {s t : State} (h : step s = .next t) : s.fault = none ∧ StepEffect s t := by
  obtain ⟨hs, hcases⟩ := cycle_next_cases h
  refine ⟨hs, ?_⟩
  rcases hcases with ⟨c, hf, rfl⟩ | ⟨hf, hd, rfl⟩ | ⟨hf, i, hd, hexec⟩
  · exact .faulted _ (recordFits_of_fetch_error hf)
  · exact .faulted _ ⟨rfl, _, fetch_of_fetchable hf, hd, rfl⟩
  · exact stepEffect_of_exec hf hd hexec

/-! ### Fault records (R73, R81) -/

/-- A step that leaves a record has written it, and nothing else. -/
theorem eq_withRecord_of_step {s t : State} {r : FaultRecord} (h : step s = .next t) (hr : t.fault = some r) :
    s.fault = none ∧ RecordFits s r ∧ t = { s with fault := some r } := by
  obtain ⟨hs, heffect⟩ := stepEffect_of_step h
  have hnew : s.fault ≠ some r := by rw [hs]; exact (Option.some_ne_none r).symm
  cases heffect with
  | faulted r' fits => cases hr; exact ⟨hs, fits, rfl⟩
  | returned | called | jumped | cleared | advanced => exact absurd hr hnew

/-- Settles O16. -/
theorem faultRecordsFitTheirTable : Obligations.FaultRecordsFitTheirTable := by
  intro s t r h hr
  obtain ⟨-, hfits, -⟩ := eq_withRecord_of_step h hr
  exact hfits

/-- Settles O17. -/
theorem raisedFaultWritesOnlyTheRecord : Obligations.RaisedFaultWritesOnlyTheRecord := by
  intro s t h ht
  obtain ⟨r, hr⟩ := Option.ne_none_iff_exists'.1 ht
  obtain ⟨hs, -, heq⟩ := eq_withRecord_of_step h hr
  exact ⟨hs, hr ▸ heq⟩

/-! ### When a step raises no fault (70_reset_and_hazards.md R103) -/

theorem stepConditions_of_exec {s t : State} {i : Instr} (hf : Fetchable s) (hd : decode (wordAtPc s) = .ok i)
    (h : exec i s = .next t) (ht : t.fault = none) : StepConditions s := by
  refine ⟨hf, i, hd, ?_⟩
  cases i with
  | ret =>
    rcases execRet_next_cases h with ⟨-, rfl⟩ | ⟨h0, -, -⟩
    · cases ht
    · change 0 < s.sp.toNat
      bv_omega
  | call nnn =>
    rcases execCall_next_cases h with ⟨-, rfl⟩ | ⟨-, hroom, -⟩
    · cases ht
    · exact Nat.lt_of_succ_lt_succ hroom
  | _ => trivial

theorem step_faultless_of_stepConditions {s : State} (hs : s.fault = none) (hsp : s.sp.toNat ≤ 15)
    (h : StepConditions s) : ∃ t, step s = .next t ∧ t.fault = none := by
  obtain ⟨hf, i, hd, hstack⟩ := h
  rw [step_of_decoded hs hf hd]
  by_cases hret : i = .ret
  · subst hret
    exact ⟨_, exec_ret_of_entry hstack (by omega), hs⟩
  · by_cases hcall : ∃ nnn, i = .call nnn
    · obtain ⟨nnn, rfl⟩ := hcall
      exact ⟨_, exec_call_of_room nnn (Nat.succ_lt_succ hstack), hs⟩
    · obtain ⟨t, ht, hfault⟩ := otherInstructionsAlwaysSucceed i s hret (not_exists.1 hcall)
      exact ⟨t, ht, hfault.trans hs⟩

/-- Settles O21. -/
theorem stepNeedsExactlyTheStepConditions : Obligations.StepNeedsExactlyTheStepConditions := by
  refine fun s hs hsp => ⟨?_, step_faultless_of_stepConditions hs hsp⟩
  rintro ⟨t, h, ht⟩
  obtain ⟨-, ⟨c, -, rfl⟩ | ⟨-, -, rfl⟩ | ⟨hf, i, hd, hexec⟩⟩ := cycle_next_cases h
  · cases ht
  · cases ht
  · exact stepConditions_of_exec hf hd hexec ht

/-! ### The stack, and the fixed points (10_state.md R20, 70_reset_and_hazards.md R100) -/

/-- Settles O29: of the effects only a CALL's is on the stack. -/
theorem onlyCallWritesTheStack : Obligations.OnlyCallWritesTheStack := by
  intro s t j h hj
  obtain ⟨-, heffect⟩ := stepEffect_of_step h
  cases heffect with
  | called nnn hf hd hs =>
    have hslot : s.sp.toNat + 1 = j.val := by
      by_contra hne
      exact hj (Vector.getElem_set_ne hs j.isLt hne)
    refine ⟨⟨nnn, hd⟩, hslot.symm, ?_⟩
    change (s.stack.set (s.sp.toNat + 1) (s.pc + 2) hs)[j.val] = s.pc + 2
    simp only [← hslot, Vector.getElem_set_self]
  | faulted | returned | jumped | cleared | advanced => exact absurd rfl hj

/-- An effect that changes nothing is a jump to its own address: a fault writes the record, RET and CALL move sp, and
every other instruction moves pc on. -/
theorem jump_to_self_of_stepEffect {s t : State} (hs : s.fault = none) (heffect : StepEffect s t) (heq : t = s) :
    Fetchable s ∧ ∃ nnn, decode (wordAtPc s) = .ok (.jp nnn) ∧ nnn.toNat = s.pc.toNat := by
  cases heffect with
  | faulted r fits =>
    have hfault : some r = s.fault := congrArg State.fault heq
    rw [hs] at hfault
    cases hfault
  | returned =>
    have hsp : s.sp - 1 = s.sp := congrArg State.sp heq
    bv_omega
  | called =>
    have hsp : s.sp + 1 = s.sp := congrArg State.sp heq
    bv_omega
  | jumped nnn hf hd =>
    have hpc : jumpTarget nnn = s.pc := congrArg State.pc heq
    exact ⟨hf, nnn, hd, by rw [← hpc, jumpTarget_toNat]⟩
  | cleared =>
    have hpc : s.pc + 2 = s.pc := congrArg State.pc heq
    bv_omega
  | advanced v pc hf hcases =>
    have hpc : pc = s.pc := congrArg State.pc heq
    bv_omega

/-- Settles O32: a jump to the address in pc leaves the state (`act_jump_pc`), and no other step does. -/
theorem fixedPointIsTheJumpToItself : Obligations.FixedPointIsTheJumpToItself := by
  refine fun s => ⟨fun h => ?_, ?_⟩
  · obtain ⟨hs, heffect⟩ := stepEffect_of_step h
    exact ⟨hs, jump_to_self_of_stepEffect hs heffect rfl⟩
  · rintro ⟨hs, hf, nnn, hd, hself⟩
    change step s = .next s
    rw [step_of_decoded hs hf hd, exec_jp, jumpTarget_eq_of_toNat_eq hself, act_jump_pc]

theorem fault_eq_none_of_fixedPoint {s : State} (h : FixedPoint s) : s.fault = none :=
  (stepEffect_of_step h).1

theorem run_of_fixedPoint {s : State} (h : FixedPoint s) (n : Nat) : Host.Core.run core n s = .next s := by
  have hstep : core.step s = .next s := h
  induction n with
  | zero => rfl
  | succ n ih => simp only [Host.Core.run, hstep, ih]

/-- Settles O33, by induction on the number of steps. -/
theorem fixedPointRunsForever : Obligations.FixedPointRunsForever :=
  fun n s h => ⟨run_of_fixedPoint h n, s, run_of_fixedPoint h n, fault_eq_none_of_fixedPoint h⟩

/-! ### The invariant -/

/-- Where no fault is recorded, the clause of Inv about the record says nothing. -/
theorem recordPc_of_faultless {t : State} (h : t.fault = none) : ∀ r, t.fault = some r → r.pc = t.pc := by
  intro r hr
  rw [h] at hr
  cases hr

theorem pc_add_le_of_fetchable {s : State} (hf : Fetchable s) {pc : Addr} (h : pc = s.pc + 2 ∨ pc = s.pc + 4) :
    pc.toNat ≤ 0x1002 := by
  have hlow : s.pc.toNat ≤ 0x0FFE := hf.2
  bv_omega

theorem jumpTarget_le (nnn : Addr12) : (jumpTarget nnn).toNat ≤ 0x0FFF := by
  rw [jumpTarget_toNat]
  exact Nat.le_of_lt_succ (addr12_lt nnn)

/-- The stack after a CALL: the written slot holds a return address within the fetch range, slot 0 is not it. -/
theorem slots_of_push {s : State} (hinv : Inv s) (hf : Fetchable s) (hs : s.sp.toNat + 1 < 16) :
    (∀ j : Fin 16, (s.stack.set (s.sp.toNat + 1) (s.pc + 2) hs)[j].toNat ≤ 0x1000) ∧
      (s.stack.set (s.sp.toNat + 1) (s.pc + 2) hs)[0] = 0 := by
  have hlow : s.pc.toNat ≤ 0x0FFE := hf.2
  refine ⟨fun j => ?_, (Vector.getElem_set_ne hs (by omega) (by omega)).trans hinv.slotZero⟩
  change ((s.stack.set (s.sp.toNat + 1) (s.pc + 2) hs)[j.val]).toNat ≤ 0x1000
  rw [Vector.getElem_set]
  split
  · bv_omega
  · exact hinv.slotBound j

theorem inv_of_stepEffect {s t : State} (hinv : Inv s) (hs : s.fault = none) (heffect : StepEffect s t) : Inv t := by
  cases heffect with
  | faulted r fits =>
    obtain ⟨hpc, -⟩ := fits
    exact { hinv with recordPc := fun r' hr' => Option.some.inj hr' ▸ hpc }
  | returned hf hd h0 hslot =>
    have hsp : (s.sp - 1).toNat ≤ 15 := by bv_omega
    have hpc : s.stack[s.sp.toNat].toNat ≤ 0x1000 := hinv.slotBound ⟨s.sp.toNat, hslot⟩
    exact { hinv with
      spLegal := hsp, pcBound := hpc.trans (by decide), recordPc := recordPc_of_faultless hs }
  | called nnn hf hd hroom =>
    obtain ⟨hslots, hzero⟩ := slots_of_push hinv hf hroom
    have hsp : (s.sp + 1).toNat ≤ 15 := by bv_omega
    exact { hinv with
      spLegal := hsp, pcBound := (jumpTarget_le nnn).trans (by decide), slotBound := hslots, slotZero := hzero,
      recordPc := recordPc_of_faultless hs }
  | jumped nnn hf hd =>
    exact { hinv with pcBound := (jumpTarget_le nnn).trans (by decide), recordPc := recordPc_of_faultless hs }
  | cleared hf hd =>
    exact { hinv with pcBound := pc_add_le_of_fetchable hf (.inl rfl), recordPc := recordPc_of_faultless hs }
  | advanced v pc hf hpc =>
    exact { hinv with pcBound := pc_add_le_of_fetchable hf hpc, recordPc := recordPc_of_faultless hs }

/-- Settles O22, by the effects of a step. -/
theorem stepKeepsTheInvariant : Obligations.StepKeepsTheInvariant := by
  intro s t hinv h
  obtain ⟨hs, heffect⟩ := stepEffect_of_step h
  exact inv_of_stepEffect hinv hs heffect

/-- Settles O2: every field of the core just constructed is zero but pc, which is 0x200. -/
theorem resetMeetsTheInvariant : Obligations.ResetMeetsTheInvariant where
  memory := rfl
  spLegal := by decide
  pcBound := by decide
  slotBound j := by rw [reset_stack]; decide
  slotZero := reset_stack 0
  indexZero := rfl
  recordPc := recordPc_of_faultless rfl

end Sys2Proof.Proofs

/-! ## More changes of the state that no step sees (10_state.md, 20_memory.md)

The index register, the memory outside the fetched word and the frame buffer, by `CommutesWithOps` as the timers. -/

namespace Sys2Proof.Proofs

open Sys2Proof.Machine Sys2Proof.Safety

/-- A change of neither sp nor the stack commutes with a push. -/
theorem push_comm_of_stack_kept {f : State → State} (hsp : ∀ s, (f s).sp = s.sp) (hstack : ∀ s, (f s).stack = s.stack)
    (hset : ∀ s p k, { f s with sp := p, stack := k } = f { s with sp := p, stack := k }) (s : State) (a : Addr) :
    (f s).push a = (s.push a).map f := by
  simp only [State.push, hsp, hstack, hset]
  split <;> rfl

/-- A change of neither sp nor the stack commutes with a pop. -/
theorem pop_comm_of_stack_kept {f : State → State} (hsp : ∀ s, (f s).sp = s.sp) (hstack : ∀ s, (f s).stack = s.stack)
    (hset : ∀ s p k, { f s with sp := p, stack := k } = f { s with sp := p, stack := k }) (s : State) :
    (f s).pop = s.pop.map (Prod.map id f) := by
  simp only [State.pop, hsp, hstack, hset]
  split <;> rfl

/-! ### The index register (10_state.md R17) -/

/-- The state with another value of I. -/
def withIndex (a : Addr) (s : State) : State := { s with i := a }

theorem withIndex_commutesWithOps (a : Addr) : CommutesWithOps (withIndex a) where
  pc _ := rfl
  sp _ := rfl
  reg _ _ := rfl
  setReg _ _ _ := rfl
  clearFrame _ := rfl
  push := push_comm_of_stack_kept (fun _ => rfl) (fun _ => rfl) (fun _ _ _ => rfl)
  pop := pop_comm_of_stack_kept (fun _ => rfl) (fun _ => rfl) (fun _ _ _ => rfl)
  act _ _ := rfl
  raise _ _ _ := rfl

/-- Settles O26: a step commutes with every change of I. -/
theorem indexRegisterIsNeverUsed : Obligations.IndexRegisterIsNeverUsed :=
  fun _ a => (withIndex_commutesWithOps a).step rfl rfl

/-! ### The memory (20_memory.md R35, R39) -/

/-- The state with another memory. -/
def withMemory (m : Memory) (s : State) : State := { s with mem := m }

theorem withMemory_commutesWithOps (m : Memory) : CommutesWithOps (withMemory m) where
  pc _ := rfl
  sp _ := rfl
  reg _ _ := rfl
  setReg _ _ _ := rfl
  clearFrame _ := rfl
  push := push_comm_of_stack_kept (fun _ => rfl) (fun _ => rfl) (fun _ _ _ => rfl)
  pop := pop_comm_of_stack_kept (fun _ => rfl) (fun _ => rfl) (fun _ _ _ => rfl)
  act _ _ := rfl
  raise _ _ _ := rfl

theorem step_withMemory {m : Memory} {s : State} (hhi : m.read s.pc.toNat = s.mem.read s.pc.toNat)
    (hlo : m.read (s.pc.toNat + 1) = s.mem.read (s.pc.toNat + 1)) :
    step (withMemory m s) = mapNext (withMemory m) (step s) := by
  have hfetch : fetch (withMemory m s) = fetch s := by simp only [fetch, withMemory, hhi, hlo]
  exact (withMemory_commutesWithOps m).step rfl hfetch

/-- Settles O28: a step commutes with every change of memory that leaves the fetched word. -/
theorem stepReadsOnlyTheTwoFetchedBytes : Obligations.StepReadsOnlyTheTwoFetchedBytes :=
  fun _ _ => step_withMemory

theorem step_keeps_memory {s t : State} (h : step s = .next t) : t.mem = s.mem := by
  have ht : withMemory s.mem t = t := next_fixed_of_mapNext (step_withMemory rfl rfl) rfl h
  exact (congrArg State.mem ht).symm

theorem hostOp_keeps_memory {σ σ' : Session} {op : HostOp} (hc : op ≠ .construct)
    (hl : (∃ img, op = .load img) → σ.phase ≠ .constructed) (h : (σ.op op).session? = some σ') :
    σ'.core.mem = σ.core.mem := by
  rcases Session.op_leaves_cases h with ⟨rfl, -⟩ | ⟨img, c, rfl, hphase, -, -⟩ | ⟨c, -, -, -, hstep, rfl⟩ |
    ⟨d, e, -, -, rfl⟩ | ⟨-, -, rfl⟩ | ⟨-, -, rfl⟩
  · exact absurd rfl hc
  · exact absurd hphase (hl ⟨img, rfl⟩)
  · exact step_keeps_memory hstep
  · rfl
  · rfl
  · rfl

/-- Settles O24: the memory is the same list, so each of its bytes is. -/
theorem memoryIsConstantFromTheFirstStep : Obligations.MemoryIsConstantFromTheFirstStep := by
  refine ⟨fun s t h a => ?_, fun σ σ' op hc hl h a => ?_⟩
  · rw [step_keeps_memory h]
  · rw [hostOp_keeps_memory hc hl h]

/-! ### The frame buffer (10_state.md R23)

CLS writes the frame buffer, so a step does not commute with every change of it; it does with the one that CLS makes. -/

theorem clearFrame_commutesWithOps : CommutesWithOps State.clearFrame where
  pc _ := rfl
  sp _ := rfl
  reg _ _ := rfl
  setReg _ _ _ := rfl
  clearFrame _ := rfl
  push := push_comm_of_stack_kept (fun _ => rfl) (fun _ => rfl) (fun _ _ _ => rfl)
  pop := pop_comm_of_stack_kept (fun _ => rfl) (fun _ => rfl) (fun _ _ _ => rfl)
  act _ _ := rfl
  raise _ _ _ := rfl

theorem step_clearFrame (s : State) : step s.clearFrame = mapNext State.clearFrame (step s) :=
  clearFrame_commutesWithOps.step rfl rfl

/-- The state with another frame buffer. -/
def withFrame (f : Vector (Vector Pixel 64) 32) (s : State) : State := { s with fb := f }

theorem mapNext_withFrame_clearFrame (g : Vector (Vector Pixel 64) 32) (r : Result) :
    mapNext (withFrame g) (mapNext State.clearFrame r) = mapNext (withFrame g) r := by
  cases r <;> rfl

/-- Steps from two states that differ only in the frame buffer agree on everything else: both are the step from the
state with the frame cleared. -/
theorem step_withFrame (f g : Vector (Vector Pixel 64) 32) (s : State) :
    mapNext (withFrame g) (step (withFrame f s)) = mapNext (withFrame g) (step s) :=
  calc mapNext (withFrame g) (step (withFrame f s))
      = mapNext (withFrame g) (mapNext State.clearFrame (step (withFrame f s))) :=
        (mapNext_withFrame_clearFrame g _).symm
    _ = mapNext (withFrame g) (step s.clearFrame) := by rw [← step_clearFrame]; rfl
    _ = mapNext (withFrame g) (step s) := by rw [step_clearFrame, mapNext_withFrame_clearFrame]

/-- Settles O27: of the effects only that of CLS is on the frame buffer. -/
theorem frameBufferIsWrittenOnlyByCls : Obligations.FrameBufferIsWrittenOnlyByCls := by
  refine ⟨fun s t h hfb => ?_, fun s f g => step_withFrame f g s⟩
  obtain ⟨-, heffect⟩ := stepEffect_of_step h
  cases heffect with
  | cleared hf hd => exact ⟨hf, (decode_eq_cls_iff _).1 hd, fb_eq_blankFrame_iff.1 rfl⟩
  | faulted | returned | called | jumped | advanced => exact absurd rfl hfb

end Sys2Proof.Proofs

/-! ## The host's operations (70_reset_and_hazards.md) -/

namespace Sys2Proof.Proofs

open Sys2Proof.Machine Sys2Proof.Safety

/-! ### Load (R97) -/

theorem load_of_length_le {img : List Byte} (s : State) (h : img.length ≤ 0xE00) :
    s.load img = some { s with mem := s.mem.writeBytes 0x200 img } := if_pos h

theorem load_of_length_gt {img : List Byte} (s : State) (h : img.length > 0xE00) : s.load img = none :=
  if_neg (Nat.not_le.2 h)

theorem read_writeBytes_inside (m : Memory) {a k : Nat} {bs : List Byte} (hk : k < bs.length) (ha : a + k < 4096) :
    (m.writeBytes a bs).read (a + k) = bs[k] := by
  rw [Memory.read_writeBytes, dif_pos (by omega)]
  simp only [Nat.add_sub_cancel_left]

theorem read_writeBytes_outside (m : Memory) {a a' : Nat} {bs : List Byte} (h : a' < a ∨ a + bs.length ≤ a') :
    (m.writeBytes a bs).read a' = m.read a' := by
  rw [Memory.read_writeBytes, dif_neg (by omega)]

/-- Settles O56: an image of at most 0xE00 bytes ends within memory. -/
theorem loadPlacesTheImageAndNothingElse : Obligations.LoadPlacesTheImageAndNothingElse := by
  refine fun s img => ⟨fun hlen => ⟨_, load_of_length_le s hlen, rfl, fun k hk => ?_, fun a ha => ?_⟩,
    load_of_length_gt s⟩
  · exact read_writeBytes_inside s.mem hk (by omega)
  · exact read_writeBytes_outside s.mem ha

/-! ### TimerTick (60_exceptions.md R85) -/

theorem tickDown_toNat (t : Byte) : (tickDown t).toNat = t.toNat - 1 := by
  unfold tickDown
  split
  · next h => rw [h]; rfl
  · bv_omega

/-- Settles O58: each timer on its own counts down by `tickDown_toNat` or stays. -/
theorem timerTickCountsDownToZero : Obligations.TimerTickCountsDownToZero := by
  refine fun s d e => ⟨?_, ?_, rfl⟩
  · cases d
    · rfl
    · exact tickDown_toNat s.dt
  · cases e
    · rfl
    · exact tickDown_toNat s.st

/-! ### What a session refuses (R93, R97, R100) -/

theorem op_of_stopped {σ : Session} {op : HostOp} (hp : σ.phase = .stopped) (hc : op ≠ .construct) :
    σ.op op = .notAllowed .sessionStopped := by
  cases op with
  | construct => exact absurd rfl hc
  | load img => simp only [Session.op, hp]
  | step | timerTick | readFrameBuffer | readFault | stop => exact if_pos hp

theorem op_step_of_faulted {σ : Session} (hp : σ.phase ≠ .stopped) (hf : σ.core.fault ≠ none) :
    σ.op .step = .notAllowed .coreFaulted := by
  simp only [Session.op, if_neg hp, Option.isSome_iff_ne_none.2 hf, if_true]

theorem op_step_of_unfaulted {σ : Session} (hp : σ.phase ≠ .stopped) (hf : σ.core.fault = none) :
    σ.op .step ≠ .notAllowed .coreFaulted := by
  simp only [Session.op, if_neg hp, hf, Option.isSome_none, Bool.false_eq_true, if_false]
  cases step σ.core <;> simp

/-- Settles O34: the phase is looked at first, then the fault status. -/
theorem endedSessionsTakeNoStep : Obligations.EndedSessionsTakeNoStep :=
  ⟨fun _ hp => ⟨op_step_of_faulted hp, fun h hf => op_step_of_unfaulted hp hf h⟩, fun _ _ => op_of_stopped,
    fun _ => ⟨Session.fresh, rfl, rfl, rfl⟩⟩

theorem phase_running_of_step {σ σ' : Session} (h : (σ.op .step).session? = some σ') : σ'.phase = .running := by
  rcases Session.op_leaves_cases h with ⟨hop, -⟩ | ⟨_, _, hop, -⟩ | ⟨c, -, -, -, -, rfl⟩ | ⟨_, _, hop, -⟩ |
    ⟨hop | hop, -⟩ | ⟨hop, -⟩
  · cases hop
  · cases hop
  · rfl
  · cases hop
  · cases hop
  · cases hop
  · cases hop

theorem phase_kept_or_stopped {σ σ' : Session} {op : HostOp} (hc : op ≠ .construct)
    (hp : σ.phase ≠ .constructed) (h : (σ.op op).session? = some σ') : σ'.phase = σ.phase ∨ op = .stop ∧ σ'.phase = .stopped := by
  rcases Session.op_leaves_cases h with ⟨hop, -⟩ | ⟨_, _, -, hcon, -⟩ | ⟨c, -, hstop, -, -, rfl⟩ | ⟨_, _, -, -, rfl⟩ |
    ⟨-, -, rfl⟩ | ⟨hop, -, rfl⟩
  · exact absurd hop hc
  · exact absurd hcon hp
  · cases hphase : σ.phase with
    | constructed => exact absurd hphase hp
    | running => exact .inl rfl
    | stopped => exact absurd hphase hstop
  · exact .inl rfl
  · exact .inl rfl
  · exact .inr ⟨hop, rfl⟩

/-- Settles O57, by the operations that leave a session and the phase a Load looks at first. -/
theorem loadIsRefusedAfterTheFirstStep : Obligations.LoadIsRefusedAfterTheFirstStep := by
  refine ⟨fun _ _ => phase_running_of_step, fun _ _ _ => phase_kept_or_stopped, fun σ img hp => ?_⟩
  cases hphase : σ.phase with
  | constructed => exact absurd hphase hp
  | running => simp only [Session.op, hphase, if_true]
  | stopped => exact op_of_stopped hphase nofun

/-- Settles O59. -/
theorem readsChangeNothing : Obligations.ReadsChangeNothing :=
  fun _ hp => ⟨if_neg hp, if_neg hp⟩

/-! ### The invariant along a session (R99) -/

theorem inv_of_load {s t : State} {img : List Byte} (hinv : Inv s) (h : s.load img = some t) : Inv t := by
  obtain ⟨-, rfl⟩ := State.load_eq_some h
  exact { hinv with memory := Memory.wf_writeBytes 0x200 img hinv.memory }

theorem inv_of_timerTick {s : State} (hinv : Inv s) (d e : Bool) : Inv (s.timerTick d e) := { hinv with }

/-- Settles O23, by the operations that leave a session. -/
theorem hostOperationsKeepTheInvariant : Obligations.HostOperationsKeepTheInvariant := by
  intro σ σ' op hinv h
  rcases Session.op_leaves_cases h with ⟨-, rfl⟩ | ⟨_, c, -, -, hload, rfl⟩ | ⟨c, -, -, -, hstep, rfl⟩ |
    ⟨d, e, -, -, rfl⟩ | ⟨-, -, rfl⟩ | ⟨-, -, rfl⟩
  · exact resetMeetsTheInvariant
  · exact inv_of_load hinv hload
  · exact stepKeepsTheInvariant _ _ hinv hstep
  · exact inv_of_timerTick hinv d e
  · exact hinv
  · exact hinv

/-! ### The end of a run (R100) -/

theorem endsBy_unique {σ : Session} {e e' : RunEnd} (h : EndsBy σ e) (h' : EndsBy σ e') : e = e' := by
  cases e with
  | faulted =>
    cases e' with
    | faulted => rfl
    | fixedPoint => exact absurd (fault_eq_none_of_fixedPoint h') h
    | stopped => obtain ⟨-, hnone, -⟩ := h'; exact absurd hnone h
  | fixedPoint =>
    cases e' with
    | faulted => exact absurd (fault_eq_none_of_fixedPoint h) h'
    | fixedPoint => rfl
    | stopped => obtain ⟨-, -, hmoves⟩ := h'; exact absurd h hmoves
  | stopped =>
    obtain ⟨-, hnone, hmoves⟩ := h
    cases e' with
    | faulted => exact absurd hnone h'
    | fixedPoint => exact absurd h' hmoves
    | stopped => rfl

theorem exists_endsBy_of_stopped {σ : Session} (hp : σ.phase = .stopped) : ∃ e, EndsBy σ e := by
  by_cases hf : σ.core.fault = none
  · by_cases hfix : FixedPoint σ.core
    · exact ⟨.fixedPoint, hfix⟩
    · exact ⟨.stopped, hp, hf, hfix⟩
  · exact ⟨.faulted, hf⟩

/-- Settles O60: a fixed point has no fault recorded, and the end by Stop excludes both others. -/
theorem runEndsInOneWay : Obligations.RunEndsInOneWay :=
  ⟨fun _ _ _ => endsBy_unique, fun _ => exists_endsBy_of_stopped⟩

end Sys2Proof.Proofs
